-- ==== Sys2Proof/Word.lean ====
section
/-! DEFINITION. The word types of the HWE: a register word of 32 bits and a sample of 8 bits
(00_scope.md R5). -/

namespace Sys2Proof

/-- A register word of the port: 32 bits, bit 0 least significant (00_scope.md R5, R7). -/
abbrev Word := BitVec 32

/-- One 8-bit unsigned sample of a channel (00_scope.md R5). -/
abbrev Byte := BitVec 8

/-- A channel of a pixel: 0 is R, 1 is G, 2 is B (00_scope.md R5, 10_state.md R35). -/
abbrev Channel := Fin 3

end Sys2Proof
end

