-- ==== Sys2Proof/Syntax.lean ====
section
/-! DEFINITION. The syntax of HWE interface version 1: the 37 instructions of the opcode table, the
register names, the raw transfers the port takes, and the assembler's lines (30_encoding.md). -/

namespace Sys2Proof

/-- The 16 words of the register window, in index order (10_state.md R21). -/
inductive Reg where
  | id | ctrl | status | cmd | width | height | aw | ah
  | pixX | pixY | pixData | pixGray | capacity | w13 | w14 | w15
deriving DecidableEq, Repr

/-- One constructor per row of the opcode table. Operands have exactly the width of their field
(LEVELS is 5 bits, R72; D is 32 bits, R75), so every term is well formed. A read carries no data. -/
inductive Instr where
  | nop
  | fwd1
  | inv1
  | fwdn (levels : BitVec 5)
  | invn (levels : BitVec 5)
  | rdId
  | rdCtrl
  | rdStatus
  | rdCmd
  | rdWidth
  | rdHeight
  | rdAw
  | rdAh
  | rdPixX
  | rdPixY
  | rdPixData
  | rdPixGray
  | rdCapacity
  | rdW13
  | rdW14
  | rdW15
  | wrId (d : Word)
  | wrCtrl (d : Word)
  | wrStatus (d : Word)
  | wrCmd (d : Word)
  | wrWidth (d : Word)
  | wrHeight (d : Word)
  | wrAw (d : Word)
  | wrAh (d : Word)
  | wrPixX (d : Word)
  | wrPixY (d : Word)
  | wrPixData (d : Word)
  | wrPixGray (d : Word)
  | wrCapacity (d : Word)
  | wrW13 (d : Word)
  | wrW14 (d : Word)
  | wrW15 (d : Word)
deriving DecidableEq, Repr

/-- What the host puts on the port, before any decoding: a 37-bit BUS value (R75), or a command
word that it writes to CMD (R70, and the pseudo-instruction `cmd` of R79). Log 2. -/
inductive Transfer where
  | cmd (w : Word)
  | bus (v : BitVec 37)
deriving DecidableEq, Repr

/-- A command as the assembler reads it (R77). The count is any integer, or absent; the checks are
`CommandText.wellFormed`. -/
inductive CommandText where
  | nop
  | fwd1
  | inv1
  | fwdn (n : Option Nat)
  | invn (n : Option Nat)
deriving DecidableEq, Repr

/-- A line of a host program: a transaction (R78) or a pseudo-instruction (R79). `wait k` is the
polling loop in a run where it reads STATUS `k` times. Labels, comments and other host control flow
are the host's own and no part of the HWE (R78). Log 12. -/
inductive Line where
  | rd (r : Reg)
  | wr (r : Reg) (v : Nat)
  | wrText (r : Reg) (c : CommandText)
  | cmd (c : CommandText)
  | wait (k : Nat)
  | geom (w h : Nat)
  | active (aw ah : Nat)
  | atPix (x y : Nat)
  | setpix (x y r g b : Nat)
  | setgray (x y v : Nat)
  | getpix (x y : Nat)
  | getgray (x y : Nat)
  | clrst
deriving DecidableEq, Repr

end Sys2Proof
end

