-- ==== Sys2Proof/WellFormed.lean ====
section
/-! DEFINITION. The checks of the assembler (30_encoding.md R77 to R79): which lines are accepted.
The instructions themselves need no check, since their operands have the width of their fields; the
legality of a command word (R74) is `illegalCommand` in Decode. -/

namespace Sys2Proof

/-- R77: `<n>` is 0..31, never truncated; FWDN and INVN without `<n>` are errors. -/
def CommandText.wellFormed : CommandText → Bool
  | .nop => true
  | .fwd1 => true
  | .inv1 => true
  | .fwdn (some n) => decide (n ≤ 31)
  | .fwdn none => false
  | .invn (some n) => decide (n ≤ 31)
  | .invn none => false

/-- R78: `<value>` is a 32-bit integer. -/
def isWordValue (v : Nat) : Bool := decide (v < 4294967296)

/-- R79: `<r>`, `<g>`, `<b>` and `<v>` must be 0..255. -/
def isSampleValue (v : Nat) : Bool := decide (v ≤ 255)

/-- The lines the assembler accepts (R77 to R79). A polling loop reads STATUS at least once. -/
def Line.wellFormed : Line → Bool
  | .rd _ => true
  | .wr _ v => isWordValue v
  | .wrText _ c => c.wellFormed
  | .cmd c => c.wellFormed
  | .wait k => decide (1 ≤ k)
  | .geom w h => isWordValue w && isWordValue h
  | .active aw ah => isWordValue aw && isWordValue ah
  | .atPix x y => isWordValue x && isWordValue y
  | .setpix x y r g b =>
      isWordValue x && isWordValue y && isSampleValue r && isSampleValue g && isSampleValue b
  | .setgray x y v => isWordValue x && isWordValue y && isSampleValue v
  | .getpix x y => isWordValue x && isWordValue y
  | .getgray x y => isWordValue x && isWordValue y
  | .clrst => true

end Sys2Proof
end

