-- ==== Sys2Proof/Decode.lean ====
section
/-! DEFINITION. Encodings (30_encoding.md): the fields of a command word and of a BUS value, the
decoder, total on transfers and on bytes and rejecting by name, the encoder, the host's
`decodeTableWord`, and the assembler's expansion (R77 to R79). -/

namespace Sys2Proof

/-- Why a decoder gives no instruction. -/
inductive DecodeError where
  /-- OP above 0x04 (R71, R74). -/
  | reservedOpcode
  /-- RSVD, bits 31:13 of a command word, is not 0 (R73). -/
  | reservedBits
  /-- LEVELS is not 0 in NOP, FWD1 or INV1 (R73). -/
  | levelsNotZero
  /-- A 5-byte image with a bit above WE (bit 36) set is no BUS value (R75). -/
  | bitsAboveWE
  /-- An image of neither 4 bytes (CMD) nor 5 bytes (BUS). -/
  | imageLength (n : Nat)
deriving DecidableEq, Repr

/-! ### Fields -/

/-- OP, bits 7:0 (R70). -/
def cmdOp (w : Word) : BitVec 8 := w.extractLsb' 0 8
/-- LEVELS, bits 12:8 (R70). -/
def cmdLevels (w : Word) : BitVec 5 := w.extractLsb' 8 5
/-- RSVD, bits 31:13 (R70). -/
def cmdRsvd (w : Word) : BitVec 19 := w.extractLsb' 13 19

/-- WE, bit 36: 1 is a write (R75). -/
def busWE (v : BitVec 37) : Bool := v.getLsbD 36
/-- A, bits 35:32: the word index (R75). -/
def busAddr (v : BitVec 37) : BitVec 4 := v.extractLsb' 32 4
/-- D, bits 31:0: the write data (R75). -/
def busData (v : BitVec 37) : Word := v.extractLsb' 0 32

/-- The illegal command words, as R74 spells them. -/
def illegalCommand (w : Word) : Bool :=
  decide (4 < (cmdOp w).toNat) || decide (cmdRsvd w ≠ 0#19) ||
    ((decide (cmdOp w = 0#8) || decide (cmdOp w = 1#8) || decide (cmdOp w = 2#8)) && decide (cmdLevels w ≠ 0#5))

/-! ### The register window -/

/-- The word at an index (10_state.md R21). -/
def regAt (a : BitVec 4) : Reg :=
  if a = 0#4 then .id else if a = 1#4 then .ctrl else if a = 2#4 then .status else if a = 3#4 then .cmd
  else if a = 4#4 then .width else if a = 5#4 then .height else if a = 6#4 then .aw else if a = 7#4 then .ah
  else if a = 8#4 then .pixX else if a = 9#4 then .pixY else if a = 10#4 then .pixData
  else if a = 11#4 then .pixGray else if a = 12#4 then .capacity else if a = 13#4 then .w13
  else if a = 14#4 then .w14 else .w15

/-- The index of a word (10_state.md R21). -/
def regIndex : Reg → BitVec 4
  | .id => 0 | .ctrl => 1 | .status => 2 | .cmd => 3
  | .width => 4 | .height => 5 | .aw => 6 | .ah => 7
  | .pixX => 8 | .pixY => 9 | .pixData => 10 | .pixGray => 11
  | .capacity => 12 | .w13 => 13 | .w14 => 14 | .w15 => 15

/-- The read of each word (R76, WE = 0). -/
def readOf : Reg → Instr
  | .id => .rdId | .ctrl => .rdCtrl | .status => .rdStatus | .cmd => .rdCmd
  | .width => .rdWidth | .height => .rdHeight | .aw => .rdAw | .ah => .rdAh
  | .pixX => .rdPixX | .pixY => .rdPixY | .pixData => .rdPixData | .pixGray => .rdPixGray
  | .capacity => .rdCapacity | .w13 => .rdW13 | .w14 => .rdW14 | .w15 => .rdW15

/-- The write of each word (R76, WE = 1). -/
def writeOf (r : Reg) (d : Word) : Instr :=
  match r with
  | .id => .wrId d | .ctrl => .wrCtrl d | .status => .wrStatus d | .cmd => .wrCmd d
  | .width => .wrWidth d | .height => .wrHeight d | .aw => .wrAw d | .ah => .wrAh d
  | .pixX => .wrPixX d | .pixY => .wrPixY d | .pixData => .wrPixData d | .pixGray => .wrPixGray d
  | .capacity => .wrCapacity d | .w13 => .wrW13 d | .w14 => .wrW14 d | .w15 => .wrW15 d

/-! ### The decoder -/

/-- A command word (R70 to R74): one of the five commands, or rejected by name. -/
def decodeCmd (w : Word) : Except DecodeError Instr :=
  if cmdRsvd w ≠ 0#19 then .error .reservedBits
  else if cmdOp w = 0#8 then (if cmdLevels w = 0#5 then .ok .nop else .error .levelsNotZero)
  else if cmdOp w = 1#8 then (if cmdLevels w = 0#5 then .ok .fwd1 else .error .levelsNotZero)
  else if cmdOp w = 2#8 then (if cmdLevels w = 0#5 then .ok .inv1 else .error .levelsNotZero)
  else if cmdOp w = 3#8 then .ok (.fwdn (cmdLevels w))
  else if cmdOp w = 4#8 then .ok (.invn (cmdLevels w))
  else .error .reservedOpcode

/-- A BUS value (R75, R76): every value decodes. A read's D is not carried. -/
def decodeBus (v : BitVec 37) : Instr :=
  if busWE v then writeOf (regAt (busAddr v)) (busData v) else readOf (regAt (busAddr v))

/-- The instruction a transfer holds. -/
def decode : Transfer → Except DecodeError Instr
  | .cmd w => decodeCmd w
  | .bus v => .ok (decodeBus v)

/-- The transaction the port performs for a transfer: the decoded instruction, and for a command
word that is no command the write of that word to CMD, which reports ILLEGAL_CMD or BUSY
(R74, 40_register_access.md R106). Log 2. -/
def portInstr : Transfer → Instr
  | .bus v => decodeBus v
  | .cmd w =>
    match decodeCmd w with
    | .ok i => i
    | .error _ => .wrCmd w

/-! ### The encoder -/

/-- A command word from its fields (R70). -/
def cmdWord (op : BitVec 8) (levels : BitVec 5) : Word := (0 : BitVec 19) ++ levels ++ op

/-- A BUS value from its fields (R75). -/
def busValue (we : Bool) (a : BitVec 4) (d : Word) : BitVec 37 := BitVec.ofBool we ++ a ++ d

/-- The transfer of an instruction (R71, R72, R75, R76); a read's D is written 0. -/
def encode : Instr → Transfer
  | .nop => .cmd (cmdWord 0x00 0)
  | .fwd1 => .cmd (cmdWord 0x01 0)
  | .inv1 => .cmd (cmdWord 0x02 0)
  | .fwdn n => .cmd (cmdWord 0x03 n)
  | .invn n => .cmd (cmdWord 0x04 n)
  | .rdId => .bus (busValue false 0 0)
  | .rdCtrl => .bus (busValue false 1 0)
  | .rdStatus => .bus (busValue false 2 0)
  | .rdCmd => .bus (busValue false 3 0)
  | .rdWidth => .bus (busValue false 4 0)
  | .rdHeight => .bus (busValue false 5 0)
  | .rdAw => .bus (busValue false 6 0)
  | .rdAh => .bus (busValue false 7 0)
  | .rdPixX => .bus (busValue false 8 0)
  | .rdPixY => .bus (busValue false 9 0)
  | .rdPixData => .bus (busValue false 10 0)
  | .rdPixGray => .bus (busValue false 11 0)
  | .rdCapacity => .bus (busValue false 12 0)
  | .rdW13 => .bus (busValue false 13 0)
  | .rdW14 => .bus (busValue false 14 0)
  | .rdW15 => .bus (busValue false 15 0)
  | .wrId d => .bus (busValue true 0 d)
  | .wrCtrl d => .bus (busValue true 1 d)
  | .wrStatus d => .bus (busValue true 2 d)
  | .wrCmd d => .bus (busValue true 3 d)
  | .wrWidth d => .bus (busValue true 4 d)
  | .wrHeight d => .bus (busValue true 5 d)
  | .wrAw d => .bus (busValue true 6 d)
  | .wrAh d => .bus (busValue true 7 d)
  | .wrPixX d => .bus (busValue true 8 d)
  | .wrPixY d => .bus (busValue true 9 d)
  | .wrPixData d => .bus (busValue true 10 d)
  | .wrPixGray d => .bus (busValue true 11 d)
  | .wrCapacity d => .bus (busValue true 12 d)
  | .wrW13 d => .bus (busValue true 13 d)
  | .wrW14 d => .bus (busValue true 14 d)
  | .wrW15 d => .bus (busValue true 15 d)

/-! ### Images in bytes (log 3) -/

/-- The low `n` bytes of a number, the least significant first. -/
def bytesOf : Nat → Nat → List Byte
  | 0, _ => []
  | n + 1, w => BitVec.ofNat 8 w :: bytesOf n (w / 256)

/-- The transfer a byte image holds: 4 bytes are a command word, 5 bytes a BUS value. -/
def transferOfBytes : List Byte → Except DecodeError Transfer
  | [b0, b1, b2, b3] => .ok (.cmd (b3 ++ b2 ++ b1 ++ b0))
  | [b0, b1, b2, b3, b4] =>
    if b4.extractLsb' 5 3 = 0#3 then .ok (.bus (b4.extractLsb' 0 5 ++ b3 ++ b2 ++ b1 ++ b0))
    else .error .bitsAboveWE
  | bs => .error (.imageLength bs.length)

/-- The bytes of a transfer, the inverse of `transferOfBytes`. -/
def bytesOfTransfer : Transfer → List Byte
  | .cmd w => bytesOf 4 w.toNat
  | .bus v => bytesOf 5 v.toNat

/-- The decoder on bytes: total, rejecting by name. -/
def decodeBytes (bs : List Byte) : Except DecodeError Instr :=
  match transferOfBytes bs with
  | .ok t => decode t
  | .error e => .error e

/-- The instruction read from an opcode-table word of `nbits` bits (the host's fixed name). -/
def decodeTableWord (nbits w : Nat) : Option Instr :=
  match decodeBytes (bytesOf ((nbits + 7) / 8) w) with
  | .ok i => some i
  | .error _ => none

/-- The transfer an opcode-table word stands for: at most 32 bits is a command word, more is a BUS
value. -/
def tableTransfer (nbits w : Nat) : Transfer :=
  match transferOfBytes (bytesOf ((nbits + 7) / 8) w) with
  | .ok t => t
  | .error _ => if nbits ≤ 32 then .cmd (BitVec.ofNat 32 w) else .bus (BitVec.ofNat 37 w)

/-! ### The assembler (R77 to R79) -/

/-- The command word the assembler writes for a command (R77). -/
def commandTextWord : CommandText → Word
  | .nop => 0
  | .fwd1 => 1
  | .inv1 => 2
  | .fwdn n => BitVec.ofNat 32 (3 ||| n.getD 0 <<< 8)
  | .invn n => BitVec.ofNat 32 (4 ||| n.getD 0 <<< 8)

/-- `at <x>, <y>` (R79). -/
def expandAt (x y : Nat) : List Instr :=
  [.wrPixX (BitVec.ofNat 32 x), .wrPixY (BitVec.ofNat 32 y)]

/-- The transactions of a line that passes its checks (R78, R79). -/
def expandLine : Line → List Instr
  | .rd r => [readOf r]
  | .wr r v => [writeOf r (BitVec.ofNat 32 v)]
  | .wrText r c => [writeOf r (commandTextWord c)]
  | .cmd c => [.wrCmd (commandTextWord c)]
  | .wait k => List.replicate k .rdStatus
  | .geom w h => [.wrWidth (BitVec.ofNat 32 w), .wrHeight (BitVec.ofNat 32 h)]
  | .active aw ah => [.wrAw (BitVec.ofNat 32 aw), .wrAh (BitVec.ofNat 32 ah)]
  | .atPix x y => expandAt x y
  | .setpix x y r g b => expandAt x y ++ [.wrPixData (BitVec.ofNat 32 (b <<< 16 ||| g <<< 8 ||| r))]
  | .setgray x y v => expandAt x y ++ [.wrPixGray (BitVec.ofNat 32 v)]
  | .getpix x y => expandAt x y ++ [.rdPixData]
  | .getgray x y => expandAt x y ++ [.rdPixGray]
  | .clrst => [.wrStatus 6]

/-- The assembler: a line that fails a check is an assembly error, never truncated (R77, R79). -/
def assembleLine (l : Line) : Option (List Instr) :=
  if l.wellFormed then some (expandLine l) else none

end Sys2Proof
end

