-- ==== Sys2Proof/Config.lean ====
section
/-! DEFINITION. What an implementation fixes and what the spec leaves unspecified, as opaque
constants: no proof can see their values. -/

namespace Sys2Proof

/-- PIX_CAPACITY less one, an OPEN parameter (00_scope.md R5: an integer from 1 to 2^32 - 1).
Taking it from `Fin (2^32 - 1)` keeps the range. Log 7. -/
opaque Config.capacityLessOne : Fin 4294967295

/-- PIX_CAPACITY as the CAPACITY register reads it (10_state.md R31). Log 7. -/
def Config.pixCapacity : Word := BitVec.ofNat 32 (Config.capacityLessOne.val + 1)

/-- FREE VALUE: what a byte of PB holds that nothing has written since reset number `epoch`
(70_reset_and_hazards.md R231: a draw, chosen once per entry at reset, stable until written).
Arguments: the draw's number, then the byte key. Log 5. -/
opaque Config.pixelDraw : Nat → Nat → Byte

/-- FREE VALUE: what a byte of SB holds after draw number `epoch` (10_state.md R37,
42_commands.md R178: "SB <- any value"). Arguments: the draw's number, then the byte key. Log 6. -/
opaque Config.scratchDraw : Nat → Nat → Byte

end Sys2Proof
end

