-- ==== Sys2Proof/Machine/State.lean ====
section
/-! DEFINITION. The architectural state of the HWE (10_state.md) as plain data, the model's reasons
to stop, and the state after reset (R41, R230). -/

namespace Sys2Proof.Machine

/-- A buffer of samples: the bytes written since its contents were last made unspecified, keyed by
`3 * pixel index + channel` (log 10), addresses strictly rising. A byte that is not listed holds an
unspecified value, the draw number `epoch` of it (logs 5 and 6). -/
structure Memory where
  cells : List Host.Cell
  epoch : Nat
deriving DecidableEq, Repr

/-- The commands that set BUSY (42_commands.md R171); NOP never does. -/
inductive LevelOp where
  | fwd1 | inv1 | fwdn | invn
deriving DecidableEq, Repr

/-- The hidden record of the command in progress (10_state.md R38). -/
structure Pending where
  op : LevelOp
  levels : BitVec 5
  w : Word
  h : Word
  aw : Word
  ah : Word
deriving DecidableEq, Repr

/-- The error causes of 60_exceptions.md R200. -/
inductive HweError where
  /-- Code 1: an illegal word written to CMD while idle. -/
  | illegalCmd
  /-- Code 2: a non-NOP command offered on a geometry that does not fit. -/
  | geometry
  /-- Code 3: a pixel write with COORD_OK = 0. -/
  | bounds
  /-- Code 4: a write to a locked word while BUSY = 1. -/
  | busy
deriving DecidableEq, Repr

/-- What moves next (00_scope.md R6, 70_reset_and_hazards.md R230): the host with one transaction,
the engine, or the reset input. Log 1. -/
inductive Event where
  | host (t : Transfer)
  | engine
  | rst
deriving DecidableEq, Repr

/-- The machine. The last two fields are the model's own. -/
structure State where
  /-- CTRL.IRQ_EN (R22). -/
  irqEn : Bool
  /-- STATUS.DONE (R25). -/
  done : Bool
  /-- STATUS.ERR (R26). -/
  err : Bool
  /-- STATUS.ERR_CODE (R27). -/
  errCode : BitVec 4
  /-- WIDTH (R32). -/
  width : Word
  /-- HEIGHT (R32). -/
  height : Word
  /-- AW (R33). -/
  aw : Word
  /-- AH (R33). -/
  ah : Word
  /-- PIX_X (R34). -/
  pixX : Word
  /-- PIX_Y (R34). -/
  pixY : Word
  /-- CAPACITY (R31): the build parameter PIX_CAPACITY, never written. Log 7. -/
  capacity : Word
  /-- The pixel buffer PB (R35). -/
  pb : Memory
  /-- The scratch buffer SB (R37). -/
  sb : Memory
  /-- The command in progress (R38); STATUS.BUSY is 1 exactly when there is one (R24). -/
  pending : Option Pending
  /-- The model's own: what the environment does, the next event first. Log 1. -/
  agenda : List Event
  /-- The model's own: the word returned to the latest read since reset. Log 4. -/
  rdata : Option Word
deriving DecidableEq, Repr

/-- Why the machine stops. The spec gives the HWE no trap (60_exceptions.md R207). -/
inductive Fault where
  /-- Raised by a completion whose command does not fit the buffer, so that the level would reach a
  pixel index that does not exist. Acceptance makes it impossible (41_haar_level.md R140), so only
  states that no run from reset reaches have it. Safe. Log 9. -/
  | noSuchPixel
deriving DecidableEq, Repr

/-- Why a step has no meaning. No step of this model answers with a refusal. -/
inductive Refusal where
  /-- An instruction with no meaning yet, by its mnemonic: raised by no arm of this model. Safe. -/
  | notModelled (mnemonic : String)
deriving DecidableEq, Repr

/-- The state after reset (R41, R230): CTRL, STATUS and the configuration registers at 0, no command
in progress, PB and SB unspecified. The draw numbers, the empty agenda and `rdata` are the model's
(logs 1, 4, 5, 6). -/
def State.reset : State where
  irqEn := false
  done := false
  err := false
  errCode := 0
  width := 0
  height := 0
  aw := 0
  ah := 0
  pixX := 0
  pixY := 0
  capacity := Config.pixCapacity
  pb := { cells := [], epoch := 0 }
  sb := { cells := [], epoch := 0 }
  pending := none
  agenda := []
  rdata := none

end Sys2Proof.Machine
end

