-- ==== Sys2Proof/Machine/Flags.lean ====
section
/-! DEFINITION. The fields of STATUS: the computed ones (10_state.md R24, R28, R29, R39), the error
codes (60_exceptions.md R200) and the word a read of STATUS returns (40_register_access.md R103). -/

namespace Sys2Proof.Machine

/-- STATUS.BUSY: an accepted command has not completed (R24). -/
def State.busy (s : State) : Bool := s.pending.isSome

/-- STATUS.GEOM_OK: WIDTH * HEIGHT <= PIX_CAPACITY, the product exact (R29, 00_scope.md R8). -/
def State.geomOk (s : State) : Bool := !decide (s.capacity.toNat < s.width.toNat * s.height.toNat)

/-- STATUS.COORD_OK: the port's coordinate is a pixel of the image (R28). -/
def State.coordOk (s : State) : Bool :=
  s.geomOk && decide (s.pixX.toNat < s.width.toNat) && decide (s.pixY.toNat < s.height.toNat)

/-- The `irq` output and STATUS.IRQ (R39). -/
def State.irq (s : State) : Bool := s.irqEn && (s.done || s.err)

/-- The codes of R200. -/
def HweError.code : HweError → BitVec 4
  | .illegalCmd => 1
  | .geometry => 2
  | .bounds => 3
  | .busy => 4

/-- STATUS as a read returns it: IRQ, GEOM_OK, COORD_OK, ERR_CODE, 0, ERR, DONE, BUSY from bit 10
down (10_state.md R23, 40_register_access.md R103). -/
def statusWord (s : State) : Word :=
  (0 : BitVec 21) ++ BitVec.ofBool s.irq ++ BitVec.ofBool s.geomOk ++ BitVec.ofBool s.coordOk ++
    s.errCode ++ (0 : BitVec 1) ++ BitVec.ofBool s.err ++ BitVec.ofBool s.done ++
    BitVec.ofBool s.busy

end Sys2Proof.Machine
end

