-- ==== Sys2Proof/Machine/Operands.lean ====
section
/-! DEFINITION. Operand forms: the coordinate map (20_memory.md R51, R55), the packing of a pixel
(R56), the level count (30_encoding.md R72) and the region of a level (42_commands.md R176). -/

namespace Sys2Proof.Machine

/-- The byte key of channel `c` of the pixel at column `x`, row `y`, with row stride `w`:
pixel index `y * w + x` (R51), three bytes to a pixel (log 10). -/
def sampleAddr (w x y : Nat) (c : Channel) : Nat := 3 * (y * w + x) + c.val

/-- The channels of a pixel in order: R, G, B. -/
def channels : List Channel := [0, 1, 2]

/-- Channel `c` of a packed pixel: bits 8c+7:8c (R56). -/
def lane (v : Word) (c : Channel) : Byte := v.extractLsb' (8 * c.val) 8

/-- A packed pixel: R in bits 7:0, G in 15:8, B in 23:16, zeros above (R56). -/
def packPixel (r g b : Byte) : Word := (0 : BitVec 8) ++ b ++ g ++ r

/-- LEVELS as an operand: zext_32 of the field, not scaled (R72). -/
def levelCount (n : BitVec 5) : Nat := (n.setWidth 32).toNat

/-- A side of the region of level `i`: the side of the image div 2^i (R176, 00_scope.md R9). -/
def levelSide (side i : Nat) : Nat := side >>> i

/-- FWD1 and INV1 take their region from AW and AH; the others from WIDTH and HEIGHT (R72). -/
def LevelOp.usesActive : LevelOp → Bool
  | .fwd1 => true
  | .inv1 => true
  | .fwdn => false
  | .invn => false

end Sys2Proof.Machine
end

