-- ==== Sys2Proof/Machine/Ops.lean ====
section
/-! DEFINITION. The shared operations: the buffers (20_memory.md R53 to R55), taking an error and its
acknowledgement (60_exceptions.md R203, R208), answering a read, the busy lock
(40_register_access.md R112), and the acceptance of a command (42_commands.md R170 to R172). -/

namespace Sys2Proof.Machine

/-! ### Buffers -/

/-- The byte listed at a key, the first one found. -/
def lookupCell : List Host.Cell → Nat → Option Byte
  | [], _ => none
  | (b, v) :: l, a => if a = b then some v else lookupCell l a

/-- Insertion that keeps keys strictly rising and replaces the byte already there. -/
def insertCell (a : Nat) (v : Byte) : List Host.Cell → List Host.Cell
  | [] => [(a, v)]
  | (b, u) :: l =>
    if a < b then (a, v) :: (b, u) :: l
    else if a = b then (a, v) :: l
    else (b, u) :: insertCell a v l

/-- The canonical form of a buffer: keys strictly rising. An unlisted byte reads as a value no
statement of the spec fixes, so no listed byte is to be left out for being equal to it (log 5). -/
abbrev Memory.wf (m : Memory) : Prop := m.cells.Pairwise (fun p q => p.1 < q.1)

/-- The byte written at a key, if one was since the contents were last made unspecified. -/
def Memory.written (m : Memory) (a : Nat) : Option Byte := lookupCell m.cells a

/-- Store one byte. -/
def Memory.store (m : Memory) (a : Nat) (v : Byte) : Memory :=
  { m with cells := insertCell a v m.cells }

/-- Make the contents unspecified: nothing listed, the next draw (logs 5 and 6). -/
def Memory.scramble (m : Memory) : Memory := { cells := [], epoch := m.epoch + 1 }

/-- One byte of PB: what was written, else the free value of its draw (70_reset_and_hazards.md
R231). -/
def pbByte (m : Memory) (a : Nat) : Byte := (m.written a).getD (Config.pixelDraw m.epoch a)

/-- One byte of SB (10_state.md R37). -/
def sbByte (m : Memory) (a : Nat) : Byte := (m.written a).getD (Config.scratchDraw m.epoch a)

/-- clampByte (00_scope.md R10). -/
def clampByte (v : Int) : Int := if v < 0 then 0 else if 255 < v then 255 else v

/-- The byte a clamped write stores (20_memory.md R53, R55). -/
def clampedByte (v : Int) : Byte := BitVec.ofNat 8 (clampByte v).toNat

/-- The arguments of one PixWrite or ScrWrite: a coordinate, a channel and an integer. -/
structure SampleWrite where
  x : Nat
  y : Nat
  c : Channel
  v : Int
deriving DecidableEq, Repr

/-- PixWrite on PB (R53) and ScrWrite on SB (R55), with row stride `w`: the clamped write. -/
def writeSample (w : Nat) (m : Memory) (q : SampleWrite) : Memory :=
  m.store (sampleAddr w q.x q.y q.c) (clampedByte q.v)

/-- Clamped writes one after another. -/
def writeSamples (w : Nat) (m : Memory) (qs : List SampleWrite) : Memory :=
  qs.foldl (writeSample w) m

/-- PixRead (R54): the sample as an integer. -/
def pixRead (w : Nat) (m : Memory) (x y : Nat) (c : Channel) : Int :=
  ((pbByte m (sampleAddr w x y c)).toNat : Int)

/-- ScrRead (R55). -/
def scrRead (w : Nat) (m : Memory) (x y : Nat) (c : Channel) : Int :=
  ((sbByte m (sampleAddr w x y c)).toNat : Int)

/-! ### Taking an error, and its acknowledgement -/

/-- raise Error(code) (60_exceptions.md R203): ERR becomes 1; ERR_CODE takes the code only if ERR was
0. Nothing is saved, no mode changes and control goes nowhere (R207). -/
def raiseError (e : HweError) (s : State) : State :=
  { s with err := true, errCode := if s.err then s.errCode else e.code }

/-- A write of STATUS (40_register_access.md R104), the acknowledgement of R208: bit 1 clears DONE,
bit 2 clears ERR and ERR_CODE. -/
def acknowledge (v : Word) (s : State) : State :=
  { s with
    done := s.done && !v.getLsbD 1
    err := s.err && !v.getLsbD 2
    errCode := if v.getLsbD 2 then 0 else s.errCode }

/-! ### Transactions -/

/-- A read: the word goes to the host and no state of the block changes (40_register_access.md
R100). Log 4. -/
def answer (w : Word) (s : State) : State := { s with rdata := some w }

/-- A write to a locked word (40_register_access.md R112): rejected with BUSY while a command is in
progress, whatever its data (60_exceptions.md R204). -/
def lockedWrite (write : State → State) (s : State) : State :=
  if s.busy then raiseError .busy s else write s

/-- A write through the pixel port (40_register_access.md R116): rejected with BOUNDS when the
coordinate is out of bounds. -/
def boundedWrite (write : State → State) (s : State) : State :=
  if s.coordOk then write s else raiseError .bounds s

/-- Write the pixel at the port's coordinate, three clamped writes in one step (R115, R117). -/
def writePixel (r g b : Byte) (s : State) : State :=
  let x := s.pixX.toNat
  let y := s.pixY.toNat
  let qs : List SampleWrite :=
    [⟨x, y, 0, (r.toNat : Int)⟩, ⟨x, y, 1, (g.toNat : Int)⟩, ⟨x, y, 2, (b.toNat : Int)⟩]
  { s with pb := writeSamples s.width.toNat s.pb qs }

/-- Channel `c` of the pixel at the port's coordinate (R113). -/
def portByte (s : State) (c : Channel) : Byte :=
  pbByte s.pb (sampleAddr s.width.toNat s.pixX.toNat s.pixY.toNat c)

/-- A read through the pixel port: 0 while busy or out of bounds (R111, R116), else the value. -/
def portRead (value : State → Word) (s : State) : Word :=
  if s.busy then 0 else if s.coordOk then value s else 0

/-! ### Acceptance of a command (42_commands.md) -/

/-- R172: the command completes in the accepting step. -/
def completeNow (s : State) : State := { s with done := true }

/-- R171: the command goes into `pending` with copies of the registers, and DONE is cleared. -/
def accept (op : LevelOp) (n : BitVec 5) (s : State) : State :=
  { s with
    pending := some { op := op, levels := n, w := s.width, h := s.height, aw := s.aw, ah := s.ah }
    done := false }

/-- The region of AW and AH does not fit the image (R170). -/
def activeTooLarge (s : State) : Bool :=
  decide (s.width.toNat < s.aw.toNat) || decide (s.height.toNat < s.ah.toNat)

/-- offer(v) after the legality check (R170), for a level command. -/
def offerLevel (op : LevelOp) (n : BitVec 5) (s : State) : State :=
  if !s.geomOk then raiseError .geometry s
  else if op.usesActive && activeTooLarge s then raiseError .geometry s
  else if !op.usesActive && decide (n = 0#5) then completeNow s
  else accept op n s

/-- The level command of an opcode, none for NOP (30_encoding.md R71). -/
def levelOpOf (op : BitVec 8) : Option LevelOp :=
  if op = 1#8 then some .fwd1
  else if op = 2#8 then some .inv1
  else if op = 3#8 then some .fwdn
  else if op = 4#8 then some .invn
  else none

/-- offer(v) (R170): the checks in order, stopping at the first that fails. -/
def offer (v : Word) (s : State) : State :=
  if illegalCommand v then raiseError .illegalCmd s
  else
    match levelOpOf (cmdOp v) with
    | none => completeNow s
    | some op => offerLevel op (cmdLevels v) s

end Sys2Proof.Machine
end

