-- ==== Sys2Proof/Machine/Commands.lean ====
section
/-! DEFINITION. The five commands (42_commands.md R173 to R177), as written to CMD: what the write of
the command word does. The levels of an accepted command run in the engine's completion step
(Engine.lean). -/

namespace Sys2Proof.Machine

/-- NOP (R173): DONE becomes 1; no geometry check. Rejected with BUSY while busy (R106). -/
def execNop (s : State) : Host.Outcome State Fault Refusal :=
  .next (lockedWrite completeNow s)

/-- FWD1 (R174): one forward level over (AW, AH), offered (R170). -/
def execFwd1 (s : State) : Host.Outcome State Fault Refusal :=
  .next (lockedWrite (offerLevel .fwd1 0) s)

/-- INV1 (R175): one inverse level over (AW, AH), offered (R170). -/
def execInv1 (s : State) : Host.Outcome State Fault Refusal :=
  .next (lockedWrite (offerLevel .inv1 0) s)

/-- FWDN n (R176): n forward levels, offered (R170). -/
def execFwdn (levels : BitVec 5) (s : State) : Host.Outcome State Fault Refusal :=
  .next (lockedWrite (offerLevel .fwdn levels) s)

/-- INVN n (R177): n inverse levels, offered (R170). -/
def execInvn (levels : BitVec 5) (s : State) : Host.Outcome State Fault Refusal :=
  .next (lockedWrite (offerLevel .invn levels) s)

end Sys2Proof.Machine
end

