-- ==== Sys2Proof/Machine/PixelPort.lean ====
section
/-! DEFINITION. The pixel port (40_register_access.md R113 to R118). -/

namespace Sys2Proof.Machine

/-- rd PIX_DATA (R114): the packed pixel, 0 while busy or out of bounds. -/
def execRdPixData (s : State) : Host.Outcome State Fault Refusal :=
  .next (answer (portRead (fun s => packPixel (portByte s 0) (portByte s 1) (portByte s 2)) s) s)

/-- rd PIX_GRAY (R118): channel 0 only, 0 while busy or out of bounds. -/
def execRdPixGray (s : State) : Host.Outcome State Fault Refusal :=
  .next (answer (portRead (fun s => (portByte s 0).setWidth 32) s) s)

/-- wr PIX_DATA (R115): the packed pixel; BUSY, then BOUNDS; bits 31:24 ignored. -/
def execWrPixData (d : Word) (s : State) : Host.Outcome State Fault Refusal :=
  .next (lockedWrite (boundedWrite (writePixel (lane d 0) (lane d 1) (lane d 2))) s)

/-- wr PIX_GRAY (R117): bits 7:0 into all three channels; BUSY, then BOUNDS. -/
def execWrPixGray (d : Word) (s : State) : Host.Outcome State Fault Refusal :=
  .next (lockedWrite (boundedWrite (writePixel (lane d 0) (lane d 0) (lane d 0))) s)

end Sys2Proof.Machine
end

