-- ==== Sys2Proof/Machine/RegisterReads.lean ====
section
/-! DEFINITION. The reads of the register words (40_register_access.md R101 to R110). No read changes
the block's state (R100); each answers one word, also while busy (R111). -/

namespace Sys2Proof.Machine

/-- rd ID (R101). -/
def execRdId (s : State) : Host.Outcome State Fault Refusal :=
  .next (answer 0x48574531#32 s)

/-- rd CTRL (R102): IRQ_EN in bit 0. -/
def execRdCtrl (s : State) : Host.Outcome State Fault Refusal :=
  .next (answer (BitVec.setWidth 32 (BitVec.ofBool s.irqEn)) s)

/-- rd STATUS (R103). -/
def execRdStatus (s : State) : Host.Outcome State Fault Refusal :=
  .next (answer (statusWord s) s)

/-- rd CMD (R105): 0. -/
def execRdCmd (s : State) : Host.Outcome State Fault Refusal :=
  .next (answer 0 s)

/-- rd WIDTH (R107). -/
def execRdWidth (s : State) : Host.Outcome State Fault Refusal :=
  .next (answer s.width s)

/-- rd HEIGHT (R107). -/
def execRdHeight (s : State) : Host.Outcome State Fault Refusal :=
  .next (answer s.height s)

/-- rd AW (R107). -/
def execRdAw (s : State) : Host.Outcome State Fault Refusal :=
  .next (answer s.aw s)

/-- rd AH (R107). -/
def execRdAh (s : State) : Host.Outcome State Fault Refusal :=
  .next (answer s.ah s)

/-- rd PIX_X (R107). -/
def execRdPixX (s : State) : Host.Outcome State Fault Refusal :=
  .next (answer s.pixX s)

/-- rd PIX_Y (R107). -/
def execRdPixY (s : State) : Host.Outcome State Fault Refusal :=
  .next (answer s.pixY s)

/-- rd CAPACITY (R109). -/
def execRdCapacity (s : State) : Host.Outcome State Fault Refusal :=
  .next (answer s.capacity s)

/-- rd w13 (R110): a reserved word reads 0. -/
def execRdW13 (s : State) : Host.Outcome State Fault Refusal :=
  .next (answer 0 s)

/-- rd w14 (R110). -/
def execRdW14 (s : State) : Host.Outcome State Fault Refusal :=
  .next (answer 0 s)

/-- rd w15 (R110). -/
def execRdW15 (s : State) : Host.Outcome State Fault Refusal :=
  .next (answer 0 s)

end Sys2Proof.Machine
end

