-- ==== Sys2Proof/Machine/RegisterWrites.lean ====
section
/-! DEFINITION. The writes of the register words (40_register_access.md R101 to R110). -/

namespace Sys2Proof.Machine

/-- wr ID (R101): ignored, no error. -/
def execWrId (_d : Word) (s : State) : Host.Outcome State Fault Refusal :=
  .next s

/-- wr CTRL (R102): bit 0 is IRQ_EN, the others are ignored; not locked. -/
def execWrCtrl (d : Word) (s : State) : Host.Outcome State Fault Refusal :=
  .next { s with irqEn := d.getLsbD 0 }

/-- wr STATUS (R104): the write-1-to-clear bits; not locked. -/
def execWrStatus (d : Word) (s : State) : Host.Outcome State Fault Refusal :=
  .next (acknowledge d s)

/-- wr CMD (R106): BUSY while busy, else the word is offered (R170). -/
def execWrCmd (d : Word) (s : State) : Host.Outcome State Fault Refusal :=
  .next (lockedWrite (offer d) s)

/-- wr WIDTH (R108): all 32 bits, locked while busy. -/
def execWrWidth (d : Word) (s : State) : Host.Outcome State Fault Refusal :=
  .next (lockedWrite (fun s => { s with width := d }) s)

/-- wr HEIGHT (R108): all 32 bits, locked while busy. -/
def execWrHeight (d : Word) (s : State) : Host.Outcome State Fault Refusal :=
  .next (lockedWrite (fun s => { s with height := d }) s)

/-- wr AW (R108): all 32 bits, locked while busy. -/
def execWrAw (d : Word) (s : State) : Host.Outcome State Fault Refusal :=
  .next (lockedWrite (fun s => { s with aw := d }) s)

/-- wr AH (R108): all 32 bits, locked while busy. -/
def execWrAh (d : Word) (s : State) : Host.Outcome State Fault Refusal :=
  .next (lockedWrite (fun s => { s with ah := d }) s)

/-- wr PIX_X (R108): all 32 bits, locked while busy. -/
def execWrPixX (d : Word) (s : State) : Host.Outcome State Fault Refusal :=
  .next (lockedWrite (fun s => { s with pixX := d }) s)

/-- wr PIX_Y (R108): all 32 bits, locked while busy. -/
def execWrPixY (d : Word) (s : State) : Host.Outcome State Fault Refusal :=
  .next (lockedWrite (fun s => { s with pixY := d }) s)

/-- wr CAPACITY (R109): ignored, no error. -/
def execWrCapacity (_d : Word) (s : State) : Host.Outcome State Fault Refusal :=
  .next s

/-- wr w13 (R110): a reserved word ignores writes. -/
def execWrW13 (_d : Word) (s : State) : Host.Outcome State Fault Refusal :=
  .next s

/-- wr w14 (R110): a reserved word ignores writes. -/
def execWrW14 (_d : Word) (s : State) : Host.Outcome State Fault Refusal :=
  .next s

/-- wr w15 (R110): a reserved word ignores writes. -/
def execWrW15 (_d : Word) (s : State) : Host.Outcome State Fault Refusal :=
  .next s

end Sys2Proof.Machine
end

