-- ==== Sys2Proof/Machine/Dispatch.lean ====
section
/-! DEFINITION. The meaning of every instruction: one arm per row of the opcode table. -/

namespace Sys2Proof.Machine

def exec (i : Instr) (s : State) : Host.Outcome State Fault Refusal :=
  match i with
  | .nop => Sys2Proof.Machine.execNop s
  | .fwd1 => Sys2Proof.Machine.execFwd1 s
  | .inv1 => Sys2Proof.Machine.execInv1 s
  | .fwdn levels => Sys2Proof.Machine.execFwdn levels s
  | .invn levels => Sys2Proof.Machine.execInvn levels s
  | .rdId => Sys2Proof.Machine.execRdId s
  | .rdCtrl => Sys2Proof.Machine.execRdCtrl s
  | .rdStatus => Sys2Proof.Machine.execRdStatus s
  | .rdCmd => Sys2Proof.Machine.execRdCmd s
  | .rdWidth => Sys2Proof.Machine.execRdWidth s
  | .rdHeight => Sys2Proof.Machine.execRdHeight s
  | .rdAw => Sys2Proof.Machine.execRdAw s
  | .rdAh => Sys2Proof.Machine.execRdAh s
  | .rdPixX => Sys2Proof.Machine.execRdPixX s
  | .rdPixY => Sys2Proof.Machine.execRdPixY s
  | .rdPixData => Sys2Proof.Machine.execRdPixData s
  | .rdPixGray => Sys2Proof.Machine.execRdPixGray s
  | .rdCapacity => Sys2Proof.Machine.execRdCapacity s
  | .rdW13 => Sys2Proof.Machine.execRdW13 s
  | .rdW14 => Sys2Proof.Machine.execRdW14 s
  | .rdW15 => Sys2Proof.Machine.execRdW15 s
  | .wrId d => Sys2Proof.Machine.execWrId d s
  | .wrCtrl d => Sys2Proof.Machine.execWrCtrl d s
  | .wrStatus d => Sys2Proof.Machine.execWrStatus d s
  | .wrCmd d => Sys2Proof.Machine.execWrCmd d s
  | .wrWidth d => Sys2Proof.Machine.execWrWidth d s
  | .wrHeight d => Sys2Proof.Machine.execWrHeight d s
  | .wrAw d => Sys2Proof.Machine.execWrAw d s
  | .wrAh d => Sys2Proof.Machine.execWrAh d s
  | .wrPixX d => Sys2Proof.Machine.execWrPixX d s
  | .wrPixY d => Sys2Proof.Machine.execWrPixY d s
  | .wrPixData d => Sys2Proof.Machine.execWrPixData d s
  | .wrPixGray d => Sys2Proof.Machine.execWrPixGray d s
  | .wrCapacity d => Sys2Proof.Machine.execWrCapacity d s
  | .wrW13 d => Sys2Proof.Machine.execWrW13 d s
  | .wrW14 d => Sys2Proof.Machine.execWrW14 d s
  | .wrW15 d => Sys2Proof.Machine.execWrW15 d s

end Sys2Proof.Machine
end

