-- ==== Sys2Proof/Machine/Haar.lean ====
section
/-! DEFINITION. The Haar level datapath (41_haar_level.md): the pair functions, the row and column
passes of a forward and of an inverse level, and the multi-level loops of FWDN and INVN. -/

namespace Sys2Proof.Machine

/-! ### Arithmetic on integers -/

/-- tdiv2 (00_scope.md R9): the quotient by 2 rounded toward zero. -/
def tdiv2 (v : Int) : Int := if 0 ≤ v then v / 2 else -((-v) / 2)

/-- bias (00_scope.md R10). -/
def bias (v : Int) : Int := v + 128

/-- unbias (00_scope.md R10). -/
def unbias (d : Int) : Int := d - 128

/-- FA (R141): the approximation of a pair. -/
def fwdApprox (p p2 : Int) : Int := tdiv2 (p + p2)

/-- FD (R141): the biased detail of a pair. -/
def fwdDetail (p p2 : Int) : Int := bias (tdiv2 (p - p2))

/-- IA (R146): the even sample. -/
def invEven (p d : Int) : Int := clampByte (p + unbias d)

/-- IB (R146): the odd sample. -/
def invOdd (p d : Int) : Int := clampByte (p - unbias d)

/-! ### Passes: the writes, in the order of the pseudocode, computed from the buffer the pass reads -/

/-- The forward row pass (R142): reads PB, writes SB. -/
def fwdRowWrites (w aw ah : Nat) (pb : Memory) : List SampleWrite :=
  (List.range ah).flatMap fun y =>
    channels.flatMap fun c =>
      (List.range (aw / 2)).flatMap fun x =>
        let p := pixRead w pb (2 * x) y c
        let p2 := pixRead w pb (2 * x + 1) y c
        [⟨x, y, c, fwdApprox p p2⟩, ⟨x + aw / 2, y, c, fwdDetail p p2⟩]

/-- The forward column pass (R143): reads SB, writes PB, over the columns the row pass wrote. -/
def fwdColWrites (w aw ah : Nat) (sb : Memory) : List SampleWrite :=
  (List.range (2 * (aw / 2))).flatMap fun x =>
    channels.flatMap fun c =>
      (List.range (ah / 2)).flatMap fun y =>
        let p := scrRead w sb x (2 * y) c
        let p2 := scrRead w sb x (2 * y + 1) c
        [⟨x, y, c, fwdApprox p p2⟩, ⟨x, y + ah / 2, c, fwdDetail p p2⟩]

/-- The inverse row pass (R147): reads PB, writes SB. -/
def invRowWrites (w aw ah : Nat) (pb : Memory) : List SampleWrite :=
  (List.range ah).flatMap fun y =>
    channels.flatMap fun c =>
      (List.range (aw / 2)).flatMap fun x =>
        let p := pixRead w pb x y c
        let d := pixRead w pb (x + aw / 2) y c
        [⟨2 * x, y, c, invEven p d⟩, ⟨2 * x + 1, y, c, invOdd p d⟩]

/-- The inverse column pass (R148): reads SB, writes PB. -/
def invColWrites (w aw ah : Nat) (sb : Memory) : List SampleWrite :=
  (List.range (2 * (aw / 2))).flatMap fun x =>
    channels.flatMap fun c =>
      (List.range (ah / 2)).flatMap fun y =>
        let p := scrRead w sb x y c
        let d := scrRead w sb x (y + ah / 2) c
        [⟨x, 2 * y, c, invEven p d⟩, ⟨x, 2 * y + 1, c, invOdd p d⟩]

/-! ### Levels -/

/-- The two buffers a level works on. -/
structure Buffers where
  pb : Memory
  sb : Memory
deriving DecidableEq, Repr

/-- FwdLevel(aw, ah) (R144): the row pass to completion, then the column pass. -/
def fwdLevel (w aw ah : Nat) (b : Buffers) : Buffers :=
  let sb := writeSamples w b.sb (fwdRowWrites w aw ah b.pb)
  { pb := writeSamples w b.pb (fwdColWrites w aw ah sb), sb := sb }

/-- InvLevel(aw, ah) (R149): the same axis order, row pass first. -/
def invLevel (w aw ah : Nat) (b : Buffers) : Buffers :=
  let sb := writeSamples w b.sb (invRowWrites w aw ah b.pb)
  { pb := writeSamples w b.pb (invColWrites w aw ah sb), sb := sb }

/-- The loop of FWDN (42_commands.md R176): levels 0 to n-1, finest first. -/
def fwdLevels (w h n : Nat) (b : Buffers) : Buffers :=
  (List.range n).foldl (fun b i => fwdLevel w (levelSide w i) (levelSide h i) b) b

/-- The loop of INVN (42_commands.md R177): levels n-1 down to 0, coarsest first. -/
def invLevels (w h n : Nat) (b : Buffers) : Buffers :=
  (List.range n).reverse.foldl (fun b i => invLevel w (levelSide w i) (levelSide h i) b) b

end Sys2Proof.Machine
end

