-- ==== Sys2Proof/Machine/Engine.lean ====
section
/-! DEFINITION. The engine's completion step (42_commands.md R178) and the reset event
(70_reset_and_hazards.md R230). -/

namespace Sys2Proof.Machine

/-- The precondition of the command's levels (41_haar_level.md R140), which acceptance guarantees:
the image fits the buffer, and the region of FWD1 and INV1 fits the image. -/
def Pending.fits (capacity : Word) (p : Pending) : Bool :=
  decide (p.w.toNat * p.h.toNat ≤ capacity.toNat) &&
    (!p.op.usesActive ||
      (decide (p.aw.toNat ≤ p.w.toNat) && decide (p.ah.toNat ≤ p.h.toNat)))

/-- The levels of the command in progress (R178). -/
def runPending (p : Pending) (b : Buffers) : Buffers :=
  match p.op with
  | .fwd1 => fwdLevel p.w.toNat p.aw.toNat p.ah.toNat b
  | .inv1 => invLevel p.w.toNat p.aw.toNat p.ah.toNat b
  | .fwdn => fwdLevels p.w.toNat p.h.toNat (levelCount p.levels) b
  | .invn => invLevels p.w.toNat p.h.toNat (levelCount p.levels) b

/-- Completion (R178), one indivisible step: PB takes the levels' result, SB any value, `pending`
becomes none and DONE 1. -/
def complete (p : Pending) (s : State) : State :=
  { s with
    pb := (runPending p ⟨s.pb, s.sb⟩).pb
    sb := s.sb.scramble
    pending := none
    done := true }

/-- The engine's turn: the completion of the command in progress; with none it has no step, and the
turn passes (log 8). A command that does not fit faults (log 9). -/
def engineTurn (s : State) : Host.Outcome State Fault Refusal :=
  match s.pending with
  | none => .next s
  | some p => if p.fits s.capacity then .next (complete p s) else .fault .noSuchPixel

/-- The reset event (R230 to R232): every register as after reset, a command in progress abandoned,
PB and SB made unspecified. The build's capacity and the environment's agenda stay. -/
def resetEvent (s : State) : State :=
  { State.reset with
    capacity := s.capacity
    pb := s.pb.scramble
    sb := s.sb.scramble
    agenda := s.agenda }

end Sys2Proof.Machine
end

