-- ==== Sys2Proof/Machine/Step.lean ====
section
/-! DEFINITION. One step of the machine (00_scope.md R6, 20_memory.md R62): the next event of the
agenda, which is a host transaction, an engine turn or a reset. With no event left, the engine
completes what is in progress, and then the machine stays as it is (logs 1 and 8). -/

namespace Sys2Proof.Machine

/-- One step: an interleaving of whole host transactions and completions (R62). -/
def step (s : State) : Host.Outcome State Fault Refusal :=
  match s.agenda with
  | [] => engineTurn s
  | .host t :: rest => exec (portInstr t) { s with agenda := rest }
  | .engine :: rest => engineTurn { s with agenda := rest }
  | .rst :: rest => .next (resetEvent { s with agenda := rest })

/-- The instruction of an opcode-table word becomes the next event: a host transfer at the head of
the agenda. -/
def State.withFetchWord (s : State) (nbits w : Nat) : State :=
  { s with agenda := .host (tableTransfer nbits w) :: s.agenda }

end Sys2Proof.Machine
end

