-- ==== Sys2Proof/Safety.lean ====
section
/-! DEFINITION. What counts as a safe run: the invariant of the states that a run from reset reaches,
and the end of a run (70_reset_and_hazards.md R244). -/

namespace Sys2Proof.Machine

/-- A buffer of `capacity` pixels in canonical form: keys strictly rising, every key a byte of an
entry that exists (10_state.md R35, R37). -/
structure Memory.Fits (capacity : Word) (m : Memory) : Prop where
  wf : m.wf
  bounded : ∀ cell ∈ m.cells, cell.1 < 3 * capacity.toNat

/-- What the spec says of the states it describes. -/
structure State.Inv (s : State) : Prop where
  /-- PIX_CAPACITY is at least 1 (00_scope.md R5). -/
  capacity_pos : 0 < s.capacity.toNat
  /-- PB holds bytes of entries that exist (10_state.md R35). -/
  pb_fits : s.pb.Fits s.capacity
  /-- SB likewise (10_state.md R37). -/
  sb_fits : s.sb.Fits s.capacity
  /-- ERR_CODE is 0 exactly while ERR = 0 (10_state.md R27). -/
  err_code : s.errCode = 0 ↔ s.err = false
  /-- ERR_CODE is never 5 to 15 (10_state.md R27). -/
  err_code_le : s.errCode.toNat ≤ 4
  /-- DONE is 0 while a command is in progress (40_register_access.md R104, corners). -/
  busy_not_done : s.pending.isSome → s.done = false
  /-- The pending copies equal the live registers (10_state.md R38). -/
  copies : ∀ p, s.pending = some p →
    p.w = s.width ∧ p.h = s.height ∧ p.aw = s.aw ∧ p.ah = s.ah
  /-- The precondition of a level holds (41_haar_level.md R140). -/
  fits : ∀ p, s.pending = some p → p.fits s.capacity
  /-- LEVELS of a pending command: 0 for FWD1 and INV1 (30_encoding.md R73), at least 1 for FWDN and
  INVN (42_commands.md R171). -/
  levels : ∀ p, s.pending = some p → (p.levels = 0 ↔ p.op.usesActive)

/-! ### The end of a run -/

/-- The events that are transactions of the host's program. -/
def Event.isHost : Event → Bool
  | .host _ => true
  | .engine => false
  | .rst => false

/-- The end of a run (70_reset_and_hazards.md R244): the host has no transaction left, and no command
is in progress. An engine turn or a reset that the environment has left does not hold the end back. -/
def State.finished (s : State) : Bool := !s.agenda.any Event.isHost && s.pending.isNone

/-- A run of the host's program: at most `n` steps, stopping at its end (R244). -/
def runToEnd : Nat → State → Host.Outcome State Fault Refusal
  | 0, s => .next s
  | n + 1, s =>
    if s.finished then .next s
    else
      match step s with
      | .next t => runToEnd n t
      | .fault r => .fault r
      | .refused r => .refused r

/-- What a claim reads at the end of a run (R244): the registers, and the bytes of PB that the port
reaches and that were written since reset, by key (log 10). Not SB, and not the draws. -/
structure Observation where
  irqEn : Bool
  done : Bool
  err : Bool
  errCode : BitVec 4
  width : Word
  height : Word
  aw : Word
  ah : Word
  pixX : Word
  pixY : Word
  capacity : Word
  pixels : List Host.Cell
deriving DecidableEq, Repr

/-- The observation of a state (R244). -/
def State.observation (s : State) : Observation where
  irqEn := s.irqEn
  done := s.done
  err := s.err
  errCode := s.errCode
  width := s.width
  height := s.height
  aw := s.aw
  ah := s.ah
  pixX := s.pixX
  pixY := s.pixY
  capacity := s.capacity
  pixels := s.pb.cells.filter fun cell =>
    s.geomOk && decide (cell.1 < 3 * (s.width.toNat * s.height.toNat))

end Sys2Proof.Machine
end

