-- ==== Sys2Proof/Certificates/Slice0/Obligations.lean ====
section
/-! DEFINITION. The statements about the model. Each is spelled in the spec's own terms: registers,
codes as numbers, and the model's read of one byte of PB, `pbByte`. The port's returned word `rdata`
is the model's own field (log 4), and so is the agenda (log 1). -/

namespace Sys2Proof.Claims

open Sys2Proof.Machine

/-- The state after an error of this code is raised (60_exceptions.md R203): ERR is 1, and ERR_CODE
takes the code only if ERR was 0. -/
def rejected (code : BitVec 4) (s : State) : State :=
  { s with err := true, errCode := if s.err = true then s.errCode else code }

/-- WIDTH * HEIGHT <= PIX_CAPACITY (10_state.md R29). -/
def geomFits (s : State) : Prop := s.width.toNat * s.height.toNat ≤ s.capacity.toNat

/-- The port's coordinate is a pixel of the current image (10_state.md R28). -/
def inImage (s : State) : Prop :=
  geomFits s ∧ s.pixX.toNat < s.width.toNat ∧ s.pixY.toNat < s.height.toNat

/-- The byte key of a channel of the pixel at the port's coordinate (40_register_access.md R113). -/
def portAddr (s : State) (c : Channel) : Nat :=
  sampleAddr s.width.toNat s.pixX.toNat s.pixY.toNat c

/-- The state after a level command is accepted (42_commands.md R171). -/
def accepted (op : LevelOp) (n : BitVec 5) (s : State) : State :=
  { s with
    pending := some { op := op, levels := n, w := s.width, h := s.height, aw := s.aw, ah := s.ah }
    done := false }

/-- The pair functions of 41_haar_level.md R141 and R146, on integers. -/
def avg (p q : Int) : Int := (p + q).tdiv 2
def det (p q : Int) : Int := (p - q).tdiv 2 + 128
def clamp (v : Int) : Int := max 0 (min 255 v)
def evn (p d : Int) : Int := clamp (p + (d - 128))
def odd (p d : Int) : Int := clamp (p - (d - 128))

/-- The sample of a buffer at a coordinate, row stride `w`. -/
def px (w : Nat) (m : Memory) (x y : Nat) (c : Channel) : Int :=
  ((pbByte m (sampleAddr w x y c)).toNat : Int)

end Sys2Proof.Claims

open Sys2Proof Sys2Proof.Machine Sys2Proof.Claims

/-! ### Encoding -/

/-- Decoding an encoded instruction gives it back, with every operand at every value (R70 to R76). -/
def Obligations.DecodeOfEncodeIsTheInstruction : Prop :=
  ∀ i : Instr, decode (encode i) = .ok i

/-- Encoding a decoded transfer gives it back: a command word exactly, a BUS write exactly, a BUS read
with its data field written 0 (R70, R75). -/
def Obligations.EncodeOfDecodeIsTheTransfer : Prop :=
  (∀ (w : Word) (i : Instr), decode (.cmd w) = .ok i → encode i = .cmd w) ∧
  (∀ (v : BitVec 37) (i : Instr), decode (.bus v) = .ok i →
    encode i = .bus (if v.getLsbD 36 = true then v else v &&& 0x1F00000000#37))

/-- R76: the table of BUS transactions, and every 37-bit value decodes. -/
def Obligations.BusTableDecodesEveryValue : Prop :=
  (∀ d : Word,
    decode (.bus (0#1 ++ 0#4 ++ d)) = .ok .rdId ∧
    decode (.bus (0#1 ++ 1#4 ++ d)) = .ok .rdCtrl ∧
    decode (.bus (0#1 ++ 2#4 ++ d)) = .ok .rdStatus ∧
    decode (.bus (0#1 ++ 3#4 ++ d)) = .ok .rdCmd ∧
    decode (.bus (0#1 ++ 4#4 ++ d)) = .ok .rdWidth ∧
    decode (.bus (0#1 ++ 5#4 ++ d)) = .ok .rdHeight ∧
    decode (.bus (0#1 ++ 6#4 ++ d)) = .ok .rdAw ∧
    decode (.bus (0#1 ++ 7#4 ++ d)) = .ok .rdAh ∧
    decode (.bus (0#1 ++ 8#4 ++ d)) = .ok .rdPixX ∧
    decode (.bus (0#1 ++ 9#4 ++ d)) = .ok .rdPixY ∧
    decode (.bus (0#1 ++ 10#4 ++ d)) = .ok .rdPixData ∧
    decode (.bus (0#1 ++ 11#4 ++ d)) = .ok .rdPixGray ∧
    decode (.bus (0#1 ++ 12#4 ++ d)) = .ok .rdCapacity ∧
    decode (.bus (0#1 ++ 13#4 ++ d)) = .ok .rdW13 ∧
    decode (.bus (0#1 ++ 14#4 ++ d)) = .ok .rdW14 ∧
    decode (.bus (0#1 ++ 15#4 ++ d)) = .ok .rdW15 ∧
    decode (.bus (1#1 ++ 0#4 ++ d)) = .ok (.wrId d) ∧
    decode (.bus (1#1 ++ 1#4 ++ d)) = .ok (.wrCtrl d) ∧
    decode (.bus (1#1 ++ 2#4 ++ d)) = .ok (.wrStatus d) ∧
    decode (.bus (1#1 ++ 3#4 ++ d)) = .ok (.wrCmd d) ∧
    decode (.bus (1#1 ++ 4#4 ++ d)) = .ok (.wrWidth d) ∧
    decode (.bus (1#1 ++ 5#4 ++ d)) = .ok (.wrHeight d) ∧
    decode (.bus (1#1 ++ 6#4 ++ d)) = .ok (.wrAw d) ∧
    decode (.bus (1#1 ++ 7#4 ++ d)) = .ok (.wrAh d) ∧
    decode (.bus (1#1 ++ 8#4 ++ d)) = .ok (.wrPixX d) ∧
    decode (.bus (1#1 ++ 9#4 ++ d)) = .ok (.wrPixY d) ∧
    decode (.bus (1#1 ++ 10#4 ++ d)) = .ok (.wrPixData d) ∧
    decode (.bus (1#1 ++ 11#4 ++ d)) = .ok (.wrPixGray d) ∧
    decode (.bus (1#1 ++ 12#4 ++ d)) = .ok (.wrCapacity d) ∧
    decode (.bus (1#1 ++ 13#4 ++ d)) = .ok (.wrW13 d) ∧
    decode (.bus (1#1 ++ 14#4 ++ d)) = .ok (.wrW14 d) ∧
    decode (.bus (1#1 ++ 15#4 ++ d)) = .ok (.wrW15 d)) ∧
  (∀ v : BitVec 37, ∃ i, decode (.bus v) = .ok i)

/-- R74: which words are illegal, what a write of one to CMD while idle does, and that exactly 67
words are legal. -/
def Obligations.IllegalCommandWords : Prop :=
  (∀ w : Word,
    (4 < (w.extractLsb' 0 8).toNat ∨ w.extractLsb' 13 19 ≠ 0#19 ∨
        ((w.extractLsb' 0 8).toNat ≤ 2 ∧ w.extractLsb' 8 5 ≠ 0#5)) ↔
      ∀ i, decode (.cmd w) ≠ .ok i) ∧
  (∀ (w : Word) (s : State), (∀ i, decode (.cmd w) ≠ .ok i) → s.pending = none →
    exec (.wrCmd w) s = .next (rejected 1 s)) ∧
  (∃ legal : List Word, legal.length = 67 ∧ legal.Nodup ∧
    ∀ w, w ∈ legal ↔ ∃ i, decode (.cmd w) = .ok i)

/-- The encoding examples of R80, read back. -/
def Obligations.EncodingExamplesDecode : Prop :=
  decode (.cmd 0x00000000) = .ok .nop ∧
  decode (.cmd 0x00000001) = .ok .fwd1 ∧
  decode (.cmd 0x00000002) = .ok .inv1 ∧
  decode (.cmd 0x00000103) = .ok (.fwdn 1) ∧
  decode (.cmd 0x00000303) = .ok (.fwdn 3) ∧
  decode (.cmd 0x00000304) = .ok (.invn 3) ∧
  decode (.cmd 0x00001F04) = .ok (.invn 31) ∧
  decode (.cmd 0x00000003) = .ok (.fwdn 0) ∧
  decode (.cmd 0x00000005) = .error .reservedOpcode ∧
  decode (.cmd 0x00000101) = .error .levelsNotZero ∧
  decode (.cmd 0x00002003) = .error .reservedBits ∧
  decode (.bus 0x1300000203) = .ok (.wrCmd 0x203) ∧
  decode (.bus 0x0200000000) = .ok .rdStatus ∧
  decode (.bus 0x1800000001) = .ok (.wrPixX 1) ∧
  decode (.bus 0x1900000000) = .ok (.wrPixY 0) ∧
  decode (.bus 0x1A001E140A) = .ok (.wrPixData 0x001E140A)

/-- The model's byte images (log 3, a DESIGN CHOICE): the bytes of a transfer are read back as it, and
the host's `decodeTableWord` reads an encoded instruction from its format's number of bits. -/
def Obligations.ByteImagesReadBack : Prop :=
  (∀ t : Transfer, transferOfBytes (bytesOfTransfer t) = .ok t) ∧
  (∀ (i : Instr) (w : Word), encode i = .cmd w → decodeTableWord 32 w.toNat = some i) ∧
  (∀ (i : Instr) (v : BitVec 37), encode i = .bus v → decodeTableWord 40 v.toNat = some i)

/-- R77: FWDN n and INVN n assemble to their words for n up to 31, and to nothing above or without a
count. -/
def Obligations.AssemblerEncodesCommands : Prop :=
  assembleLine (.cmd .nop) = some [.wrCmd 0x00] ∧
  assembleLine (.cmd .fwd1) = some [.wrCmd 0x01] ∧
  assembleLine (.cmd .inv1) = some [.wrCmd 0x02] ∧
  (∀ n : Nat, n ≤ 31 →
    assembleLine (.cmd (.fwdn (some n))) = some [.wrCmd (BitVec.ofNat 32 (0x03 ||| n <<< 8))] ∧
    assembleLine (.cmd (.invn (some n))) = some [.wrCmd (BitVec.ofNat 32 (0x04 ||| n <<< 8))] ∧
    decode (.cmd (BitVec.ofNat 32 (0x03 ||| n <<< 8))) = .ok (.fwdn (BitVec.ofNat 5 n)) ∧
    decode (.cmd (BitVec.ofNat 32 (0x04 ||| n <<< 8))) = .ok (.invn (BitVec.ofNat 5 n))) ∧
  (∀ n : Nat, 31 < n →
    assembleLine (.cmd (.fwdn (some n))) = none ∧ assembleLine (.cmd (.invn (some n))) = none) ∧
  assembleLine (.cmd (.fwdn none)) = none ∧ assembleLine (.cmd (.invn none)) = none

/-- The pseudo-instruction setpix (R79): three writes, whose data word holds R, G and B in the lanes
that wr PIX_DATA takes them from (R56); a sample above 255 is an assembly error. -/
def Obligations.SetpixPacksTheChannels : Prop :=
  (∀ x y r g b : Nat, x < 2 ^ 32 → y < 2 ^ 32 → r ≤ 255 → g ≤ 255 → b ≤ 255 →
    ∃ d : Word, assembleLine (.setpix x y r g b) =
        some [.wrPixX (BitVec.ofNat 32 x), .wrPixY (BitVec.ofNat 32 y), .wrPixData d] ∧
      (d.extractLsb' 0 8).toNat = r ∧ (d.extractLsb' 8 8).toNat = g ∧
      (d.extractLsb' 16 8).toNat = b ∧ d.extractLsb' 24 8 = 0#8) ∧
  (∀ x y r g b : Nat, 255 < r ∨ 255 < g ∨ 255 < b → assembleLine (.setpix x y r g b) = none)

/-! ### Register transactions -/

/-- R101: ID reads its constant and ignores writes. -/
def Obligations.IdReadsItsConstantAndIgnoresWrites : Prop :=
  ∀ (s : State) (d : Word),
    decode (.bus (0#1 ++ 0#4 ++ d)) = .ok .rdId ∧
    decode (.bus (1#1 ++ 0#4 ++ d)) = .ok (.wrId d) ∧
    exec .rdId s = .next { s with rdata := some 0x48574531 } ∧
    exec (.wrId d) s = .next s

/-- R102: CTRL keeps bit 0 and reads it back; the other bits read 0; not locked. -/
def Obligations.CtrlKeepsBitZero : Prop :=
  ∀ (s : State) (d : Word),
    decode (.bus (0#1 ++ 1#4 ++ d)) = .ok .rdCtrl ∧
    decode (.bus (1#1 ++ 1#4 ++ d)) = .ok (.wrCtrl d) ∧
    exec .rdCtrl s = .next { s with rdata := some (if s.irqEn = true then 1 else 0) } ∧
    exec (.wrCtrl d) s = .next { s with irqEn := d.getLsbD 0 }

/-- R103: the layout of STATUS, its computed fields, and its value at reset. -/
def Obligations.StatusReadsItsFields : Prop :=
  (∀ d : Word, decode (.bus (0#1 ++ 2#4 ++ d)) = .ok .rdStatus) ∧
  (∀ s : State, ∃ w : Word, exec .rdStatus s = .next { s with rdata := some w } ∧
    w.getLsbD 0 = s.pending.isSome ∧
    w.getLsbD 1 = s.done ∧
    w.getLsbD 2 = s.err ∧
    w.getLsbD 3 = false ∧
    w.extractLsb' 4 4 = s.errCode ∧
    (w.getLsbD 8 = true ↔ inImage s) ∧
    (w.getLsbD 9 = true ↔ geomFits s) ∧
    w.getLsbD 10 = (s.irqEn && (s.done || s.err)) ∧
    w.extractLsb' 11 21 = 0#21) ∧
  exec .rdStatus State.reset = .next { State.reset with rdata := some 0x00000200 }

/-- R104: a write of STATUS clears DONE by bit 1, ERR and ERR_CODE by bit 2, and nothing else. -/
def Obligations.StatusWriteClearsDoneAndErr : Prop :=
  ∀ (s : State) (d : Word),
    decode (.bus (1#1 ++ 2#4 ++ d)) = .ok (.wrStatus d) ∧
    exec (.wrStatus d) s = .next
      { s with
        done := if d.getLsbD 1 = true then false else s.done
        err := if d.getLsbD 2 = true then false else s.err
        errCode := if d.getLsbD 2 = true then 0 else s.errCode }

/-- R105: CMD reads 0, whatever is in progress. -/
def Obligations.CmdReadsZero : Prop :=
  ∀ (s : State) (d : Word),
    decode (.bus (0#1 ++ 3#4 ++ d)) = .ok .rdCmd ∧
    exec .rdCmd s = .next { s with rdata := some 0 }

/-- R107: the configuration registers read their value, also while busy, when it is the value the
command in progress uses. -/
def Obligations.ConfigurationReadsReturnTheRegister : Prop :=
  (∀ d : Word,
    decode (.bus (0#1 ++ 4#4 ++ d)) = .ok .rdWidth ∧
    decode (.bus (0#1 ++ 5#4 ++ d)) = .ok .rdHeight ∧
    decode (.bus (0#1 ++ 6#4 ++ d)) = .ok .rdAw ∧
    decode (.bus (0#1 ++ 7#4 ++ d)) = .ok .rdAh ∧
    decode (.bus (0#1 ++ 8#4 ++ d)) = .ok .rdPixX ∧
    decode (.bus (0#1 ++ 9#4 ++ d)) = .ok .rdPixY) ∧
  (∀ s : State,
    exec .rdWidth s = .next { s with rdata := some s.width } ∧
    exec .rdHeight s = .next { s with rdata := some s.height } ∧
    exec .rdAw s = .next { s with rdata := some s.aw } ∧
    exec .rdAh s = .next { s with rdata := some s.ah } ∧
    exec .rdPixX s = .next { s with rdata := some s.pixX } ∧
    exec .rdPixY s = .next { s with rdata := some s.pixY }) ∧
  (∀ (s : State) (p : Pending), s.Inv → s.pending = some p →
    exec .rdWidth s = .next { s with rdata := some p.w } ∧
    exec .rdHeight s = .next { s with rdata := some p.h } ∧
    exec .rdAw s = .next { s with rdata := some p.aw } ∧
    exec .rdAh s = .next { s with rdata := some p.ah })

/-- R108: while idle a configuration register takes all 32 bits and nothing else changes; while busy
the write is rejected with BUSY (code 4). -/
def Obligations.ConfigurationWritesStoreAllBits : Prop :=
  (∀ d : Word,
    decode (.bus (1#1 ++ 4#4 ++ d)) = .ok (.wrWidth d) ∧
    decode (.bus (1#1 ++ 5#4 ++ d)) = .ok (.wrHeight d) ∧
    decode (.bus (1#1 ++ 6#4 ++ d)) = .ok (.wrAw d) ∧
    decode (.bus (1#1 ++ 7#4 ++ d)) = .ok (.wrAh d) ∧
    decode (.bus (1#1 ++ 8#4 ++ d)) = .ok (.wrPixX d) ∧
    decode (.bus (1#1 ++ 9#4 ++ d)) = .ok (.wrPixY d)) ∧
  (∀ (s : State) (d : Word), s.pending = none →
    exec (.wrWidth d) s = .next { s with width := d } ∧
    exec (.wrHeight d) s = .next { s with height := d } ∧
    exec (.wrAw d) s = .next { s with aw := d } ∧
    exec (.wrAh d) s = .next { s with ah := d } ∧
    exec (.wrPixX d) s = .next { s with pixX := d } ∧
    exec (.wrPixY d) s = .next { s with pixY := d }) ∧
  (∀ (s : State) (d : Word), s.pending ≠ none →
    exec (.wrWidth d) s = .next (rejected 4 s) ∧
    exec (.wrHeight d) s = .next (rejected 4 s) ∧
    exec (.wrAw d) s = .next (rejected 4 s) ∧
    exec (.wrAh d) s = .next (rejected 4 s) ∧
    exec (.wrPixX d) s = .next (rejected 4 s) ∧
    exec (.wrPixY d) s = .next (rejected 4 s))

/-- R109: CAPACITY reads the build's PIX_CAPACITY and ignores writes. -/
def Obligations.CapacityReadsAndIgnoresWrites : Prop :=
  ∀ (s : State) (d : Word),
    decode (.bus (0#1 ++ 12#4 ++ d)) = .ok .rdCapacity ∧
    decode (.bus (1#1 ++ 12#4 ++ d)) = .ok (.wrCapacity d) ∧
    exec .rdCapacity s = .next { s with rdata := some s.capacity } ∧
    exec (.wrCapacity d) s = .next s

/-- R110: the reserved words read 0 and ignore writes. -/
def Obligations.ReservedWordsReadZeroAndIgnoreWrites : Prop :=
  ∀ (s : State) (d : Word),
    decode (.bus (0#1 ++ 13#4 ++ d)) = .ok .rdW13 ∧
    decode (.bus (0#1 ++ 14#4 ++ d)) = .ok .rdW14 ∧
    decode (.bus (0#1 ++ 15#4 ++ d)) = .ok .rdW15 ∧
    decode (.bus (1#1 ++ 13#4 ++ d)) = .ok (.wrW13 d) ∧
    decode (.bus (1#1 ++ 14#4 ++ d)) = .ok (.wrW14 d) ∧
    decode (.bus (1#1 ++ 15#4 ++ d)) = .ok (.wrW15 d) ∧
    exec .rdW13 s = .next { s with rdata := some 0 } ∧
    exec .rdW14 s = .next { s with rdata := some 0 } ∧
    exec .rdW15 s = .next { s with rdata := some 0 } ∧
    exec (.wrW13 d) s = .next s ∧
    exec (.wrW14 d) s = .next s ∧
    exec (.wrW15 d) s = .next s

/-- R112: while busy a write to a word of the locked set, indexes 3 to 11, changes nothing but ERR and
ERR_CODE (code 4), and a write to any other word does what it does while idle. -/
def Obligations.LockedWritesWhileBusyAreRejected : Prop :=
  ∀ (s : State) (d : Word), s.pending ≠ none →
    (∀ i ∈ [Instr.wrCmd d, .wrWidth d, .wrHeight d, .wrAw d, .wrAh d, .wrPixX d, .wrPixY d,
        .wrPixData d, .wrPixGray d], exec i s = .next (rejected 4 s)) ∧
    (∀ i ∈ [Instr.wrId d, .wrCapacity d, .wrW13 d, .wrW14 d, .wrW15 d], exec i s = .next s) ∧
    exec (.wrCtrl d) s = .next { s with irqEn := d.getLsbD 0 } ∧
    exec (.wrStatus d) s = .next
      { s with
        done := if d.getLsbD 1 = true then false else s.done
        err := if d.getLsbD 2 = true then false else s.err
        errCode := if d.getLsbD 2 = true then 0 else s.errCode }

/-- R100: a read of any word, in any state, answers one word and changes nothing of the block. -/
def Obligations.ReadsChangeNothing : Prop :=
  ∀ (s : State), ∀ i ∈ [Instr.rdId, .rdCtrl, .rdStatus, .rdCmd, .rdWidth, .rdHeight, .rdAw, .rdAh,
      .rdPixX, .rdPixY, .rdPixData, .rdPixGray, .rdCapacity, .rdW13, .rdW14, .rdW15],
    ∃ w : Word, exec i s = .next { s with rdata := some w }

/-! ### The pixel port -/

/-- R114: PIX_DATA reads 0 while busy, 0 out of bounds, and else the pixel with R in bits 7:0, G in
15:8, B in 23:16 and zeros above. -/
def Obligations.PixDataReadsThePackedPixel : Prop :=
  (∀ d : Word, decode (.bus (0#1 ++ 10#4 ++ d)) = .ok .rdPixData) ∧
  (∀ s : State, s.pending ≠ none → exec .rdPixData s = .next { s with rdata := some 0 }) ∧
  (∀ s : State, s.pending = none → ¬inImage s →
    exec .rdPixData s = .next { s with rdata := some 0 }) ∧
  (∀ s : State, s.pending = none → inImage s →
    let r := pbByte s.pb (portAddr s 0)
    let g := pbByte s.pb (portAddr s 1)
    let b := pbByte s.pb (portAddr s 2)
    exec .rdPixData s = .next { s with rdata := some (0#8 ++ b ++ g ++ r) })

/-- R118: PIX_GRAY reads 0 while busy or out of bounds, and else channel 0. -/
def Obligations.PixGrayReadsChannelZero : Prop :=
  (∀ d : Word, decode (.bus (0#1 ++ 11#4 ++ d)) = .ok .rdPixGray) ∧
  (∀ s : State, s.pending ≠ none ∨ ¬inImage s →
    exec .rdPixGray s = .next { s with rdata := some 0 }) ∧
  (∀ s : State, s.pending = none → inImage s →
    exec .rdPixGray s = .next { s with rdata := some (0#24 ++ pbByte s.pb (portAddr s 0)) })

/-- R115: wr PIX_DATA stores the three lanes at the port's pixel in one step, ignores bits 31:24, and
changes no other byte and nothing else; BUSY while busy, else BOUNDS (code 3) out of bounds. -/
def Obligations.PixDataWritesThePixel : Prop :=
  (∀ d : Word, decode (.bus (1#1 ++ 10#4 ++ d)) = .ok (.wrPixData d)) ∧
  (∀ (s : State) (d : Word), s.pending ≠ none → exec (.wrPixData d) s = .next (rejected 4 s)) ∧
  (∀ (s : State) (d : Word), s.pending = none → ¬inImage s →
    exec (.wrPixData d) s = .next (rejected 3 s)) ∧
  (∀ (s : State) (d : Word), s.pending = none → inImage s →
    ∃ pb : Memory, exec (.wrPixData d) s = .next { s with pb := pb } ∧
      pbByte pb (portAddr s 0) = d.extractLsb' 0 8 ∧
      pbByte pb (portAddr s 1) = d.extractLsb' 8 8 ∧
      pbByte pb (portAddr s 2) = d.extractLsb' 16 8 ∧
      ∀ a, (∀ c, a ≠ portAddr s c) → pbByte pb a = pbByte s.pb a)

/-- R117: wr PIX_GRAY stores bits 7:0 into all three channels; else as wr PIX_DATA. -/
def Obligations.PixGrayWritesAllChannels : Prop :=
  (∀ d : Word, decode (.bus (1#1 ++ 11#4 ++ d)) = .ok (.wrPixGray d)) ∧
  (∀ (s : State) (d : Word), s.pending ≠ none → exec (.wrPixGray d) s = .next (rejected 4 s)) ∧
  (∀ (s : State) (d : Word), s.pending = none → ¬inImage s →
    exec (.wrPixGray d) s = .next (rejected 3 s)) ∧
  (∀ (s : State) (d : Word), s.pending = none → inImage s →
    ∃ pb : Memory, exec (.wrPixGray d) s = .next { s with pb := pb } ∧
      (∀ c, pbByte pb (portAddr s c) = d.extractLsb' 0 8) ∧
      ∀ a, (∀ c, a ≠ portAddr s c) → pbByte pb a = pbByte s.pb a)

/-- R116: with COORD_OK = 0 and idle a port write is rejected with BOUNDS and writes no entry, and a
port read returns 0; COORD_OK = 0 covers x beyond WIDTH, y beyond HEIGHT and a geometry that does not
fit, and every coordinate when WIDTH or HEIGHT is 0. -/
def Obligations.OutOfBoundsPortAccess : Prop :=
  ∀ s : State, s.pending = none →
    (s.width.toNat ≤ s.pixX.toNat ∨ s.height.toNat ≤ s.pixY.toNat ∨
        s.capacity.toNat < s.width.toNat * s.height.toNat ∨ s.width = 0 ∨ s.height = 0) →
    (∀ d : Word, exec (.wrPixData d) s = .next (rejected 3 s) ∧
      exec (.wrPixGray d) s = .next (rejected 3 s)) ∧
    exec .rdPixData s = .next { s with rdata := some 0 } ∧
    exec .rdPixGray s = .next { s with rdata := some 0 }

/-- R67: a port read returns the last value written to the pixel; the pixel's bits 31:24 are 0. -/
def Obligations.PortReadsBackWhatItWrote : Prop :=
  ∀ (s t : State) (d : Word), s.pending = none → inImage s → exec (.wrPixData d) s = .next t →
    exec .rdPixData t = .next { t with rdata := some (d &&& 0x00FFFFFF#32) } ∧
    exec .rdPixGray t = .next { t with rdata := some (d &&& 0x000000FF#32) }

/-- R52: a write of WIDTH or HEIGHT moves no data; the pixel at index i is then seen at
(i mod WIDTH', i div WIDTH'); a coordinate of the image has an index below WIDTH * HEIGHT, so no
coordinate reaches an index at or above it. -/
def Obligations.WidthChangeReinterpretsPixels : Prop :=
  (∀ (s : State) (d : Word) (i : Nat) (c : Channel), s.pending = none → d ≠ 0 →
    ∃ t : State, exec (.wrWidth d) s = .next t ∧ t.pb = s.pb ∧
      pbByte t.pb (sampleAddr d.toNat (i % d.toNat) (i / d.toNat) c) =
        pbByte s.pb (3 * i + c.val)) ∧
  (∀ (s : State) (d : Word), ∃ t u : State, exec (.wrWidth d) s = .next t ∧ t.pb = s.pb ∧
    exec (.wrHeight d) s = .next u ∧ u.pb = s.pb) ∧
  (∀ (s : State) (c : Channel), inImage s → portAddr s c < 3 * (s.width.toNat * s.height.toNat))

/-! ### Commands -/

/-- R170, with R106 before it and R171, R172 after it: what a write to CMD does, for every word in
every state. -/
def Obligations.CmdWriteDecision : Prop :=
  ∀ (s : State) (v : Word),
    let op := v.extractLsb' 0 8
    let n := v.extractLsb' 8 5
    let illegal := 4 < op.toNat ∨ v.extractLsb' 13 19 ≠ 0#19 ∨ (op.toNat ≤ 2 ∧ n ≠ 0#5)
    let tooLarge := s.width.toNat < s.aw.toNat ∨ s.height.toNat < s.ah.toNat
    decode (.bus (1#1 ++ 3#4 ++ v)) = .ok (.wrCmd v) ∧
    (s.pending ≠ none → exec (.wrCmd v) s = .next (rejected 4 s)) ∧
    (s.pending = none →
      (illegal → exec (.wrCmd v) s = .next (rejected 1 s)) ∧
      (¬illegal → op ≠ 0#8 → ¬geomFits s → exec (.wrCmd v) s = .next (rejected 2 s)) ∧
      (¬illegal → op = 1#8 ∨ op = 2#8 → geomFits s → tooLarge →
        exec (.wrCmd v) s = .next (rejected 2 s)) ∧
      (¬illegal → op = 0#8 → exec (.wrCmd v) s = .next { s with done := true }) ∧
      (¬illegal → op = 3#8 ∨ op = 4#8 → n = 0#5 → geomFits s →
        exec (.wrCmd v) s = .next { s with done := true }) ∧
      (¬illegal → op = 1#8 → geomFits s → ¬tooLarge →
        exec (.wrCmd v) s = .next (accepted .fwd1 n s)) ∧
      (¬illegal → op = 2#8 → geomFits s → ¬tooLarge →
        exec (.wrCmd v) s = .next (accepted .inv1 n s)) ∧
      (¬illegal → op = 3#8 → n ≠ 0#5 → geomFits s →
        exec (.wrCmd v) s = .next (accepted .fwdn n s)) ∧
      (¬illegal → op = 4#8 → n ≠ 0#5 → geomFits s →
        exec (.wrCmd v) s = .next (accepted .invn n s)))

/-- The write of a command's word to CMD is the command, in every state. -/
def Obligations.CmdWriteRunsTheCommand : Prop :=
  ∀ (s : State) (v : Word) (i : Instr), decode (.cmd v) = .ok i → exec (.wrCmd v) s = exec i s

/-- R173: NOP sets DONE and nothing else, without a geometry check; BUSY while busy; a word with a bit
of 31:8 set is no NOP; with IRQ_EN it raises `irq`. -/
def Obligations.NopSetsDone : Prop :=
  decode (.cmd 0x00000000) = .ok .nop ∧
  (∀ s : State, s.pending = none → exec .nop s = .next { s with done := true }) ∧
  (∀ s : State, s.pending ≠ none → exec .nop s = .next (rejected 4 s)) ∧
  (∀ (s : State) (w : Word), w.extractLsb' 0 8 = 0#8 → w.extractLsb' 8 24 ≠ 0#24 →
    s.pending = none → exec (.wrCmd w) s = .next (rejected 1 s)) ∧
  (∀ s : State, s.pending = none → s.irqEn = true → ∃ t, exec .nop s = .next t ∧ t.irq = true)

/-- FWD1 and INV1 are accepted exactly when idle with a geometry that fits and a region within the
image; otherwise they are rejected, with GEOMETRY while idle and with BUSY while busy (R170, R171,
R174, R175). -/
def Obligations.SingleLevelCommandsAreAccepted : Prop :=
  ∀ s : State,
    (s.pending = none →
      (geomFits s → s.aw.toNat ≤ s.width.toNat → s.ah.toNat ≤ s.height.toNat →
        exec .fwd1 s = .next (accepted .fwd1 0 s) ∧ exec .inv1 s = .next (accepted .inv1 0 s)) ∧
      ((¬geomFits s ∨ s.width.toNat < s.aw.toNat ∨ s.height.toNat < s.ah.toNat) →
        exec .fwd1 s = .next (rejected 2 s) ∧ exec .inv1 s = .next (rejected 2 s))) ∧
    (s.pending ≠ none →
      exec .fwd1 s = .next (rejected 4 s) ∧ exec .inv1 s = .next (rejected 4 s))

/-- FWDN and INVN are accepted exactly when idle with a geometry that fits and a count that is not 0,
whatever AW and AH hold; with a count of 0 they complete at once; otherwise they are rejected, with
GEOMETRY while idle and with BUSY while busy (R170 to R172, R176, R177). -/
def Obligations.MultiLevelCommandsAreAccepted : Prop :=
  ∀ (s : State) (n : BitVec 5),
    (s.pending = none →
      (geomFits s → n ≠ 0 →
        exec (.fwdn n) s = .next (accepted .fwdn n s) ∧
        exec (.invn n) s = .next (accepted .invn n s)) ∧
      (geomFits s → n = 0 →
        exec (.fwdn n) s = .next { s with done := true } ∧
        exec (.invn n) s = .next { s with done := true }) ∧
      (¬geomFits s →
        exec (.fwdn n) s = .next (rejected 2 s) ∧ exec (.invn n) s = .next (rejected 2 s))) ∧
    (s.pending ≠ none →
      exec (.fwdn n) s = .next (rejected 4 s) ∧ exec (.invn n) s = .next (rejected 4 s))

/-- R178, R179: the engine's turn completes the command in progress: PB takes the levels' result, the
command is gone, DONE is 1, and nothing else changes but SB, which takes any value. The same step
happens when the agenda is empty (log 8). -/
def Obligations.CompletionRunsTheLevels : Prop :=
  ∀ (s : State) (p : Pending) (rest : List Event),
    s.pending = some p →
    p.w.toNat * p.h.toNat ≤ s.capacity.toNat →
    (p.op = .fwd1 ∨ p.op = .inv1 → p.aw.toNat ≤ p.w.toNat ∧ p.ah.toNat ≤ p.h.toNat) →
    s.agenda = .engine :: rest ∨ (s.agenda = [] ∧ rest = []) →
    let b : Buffers := ⟨s.pb, s.sb⟩
    let w := p.w.toNat
    let h := p.h.toNat
    let n := p.levels.toNat
    ∃ sb : Memory, step s = .next
      { s with
        pb := match p.op with
          | .fwd1 => (fwdLevel w p.aw.toNat p.ah.toNat b).pb
          | .inv1 => (invLevel w p.aw.toNat p.ah.toNat b).pb
          | .fwdn => ((List.range n).foldl (fun b i => fwdLevel w (w / 2 ^ i) (h / 2 ^ i) b) b).pb
          | .invn =>
            ((List.range n).reverse.foldl (fun b i => invLevel w (w / 2 ^ i) (h / 2 ^ i) b) b).pb
        sb := sb
        pending := none
        done := true
        agenda := rest }

/-- A command written to CMD and then completed: from an idle state the two steps of FWD1, INV1,
FWDN n and INVN n leave PB as their levels say and DONE set (R174 to R177). -/
def Obligations.CommandsTransformThePixelBuffer : Prop :=
  ∀ (s : State) (rest : List Event) (n : BitVec 5),
    s.pending = none → geomFits s → n ≠ 0 →
    let b : Buffers := ⟨s.pb, s.sb⟩
    let w := s.width.toNat
    let h := s.height.toNat
    let run := fun word : Word =>
      Host.Core.run Sys2Proof.core 2
        { s with agenda := .host (.cmd word) :: .engine :: rest }
    let done := fun pb sb : Memory =>
      { s with pb := pb, sb := sb, done := true, agenda := rest }
    (s.aw.toNat ≤ w → s.ah.toNat ≤ h →
      (∃ sb, run 0x00000001 = .next (done (fwdLevel w s.aw.toNat s.ah.toNat b).pb sb)) ∧
      (∃ sb, run 0x00000002 = .next (done (invLevel w s.aw.toNat s.ah.toNat b).pb sb))) ∧
    (∃ sb, run (0#19 ++ n ++ 3#8) = .next (done (fwdLevels w h n.toNat b).pb sb)) ∧
    (∃ sb, run (0#19 ++ n ++ 4#8) = .next (done (invLevels w h n.toNat b).pb sb))

/-! ### The level datapath -/

/-- R155, forward: each 2x2 block of samples goes to one position in each quadrant. -/
def Obligations.ForwardLevelClosedForm : Prop :=
  ∀ (w aw ah i j : Nat) (ch : Channel) (b : Buffers),
    aw ≤ w → i < aw / 2 → j < ah / 2 →
    let t := (fwdLevel w aw ah b).pb
    let x00 := px w b.pb (2 * i) (2 * j) ch
    let x10 := px w b.pb (2 * i + 1) (2 * j) ch
    let x01 := px w b.pb (2 * i) (2 * j + 1) ch
    let x11 := px w b.pb (2 * i + 1) (2 * j + 1) ch
    px w t i j ch = avg (avg x00 x10) (avg x01 x11) ∧
    px w t (i + aw / 2) j ch = avg (det x00 x10) (det x01 x11) ∧
    px w t i (j + ah / 2) ch = det (avg x00 x10) (avg x01 x11) ∧
    px w t (i + aw / 2) (j + ah / 2) ch = det (det x00 x10) (det x01 x11)

/-- R155, inverse: the four coefficients of a block give back a 2x2 block, the row pass first. -/
def Obligations.InverseLevelClosedForm : Prop :=
  ∀ (w aw ah i j : Nat) (ch : Channel) (b : Buffers),
    aw ≤ w → i < aw / 2 → j < ah / 2 →
    let t := (invLevel w aw ah b).pb
    let ll := px w b.pb i j ch
    let hl := px w b.pb (i + aw / 2) j ch
    let lh := px w b.pb i (j + ah / 2) ch
    let hh := px w b.pb (i + aw / 2) (j + ah / 2) ch
    px w t (2 * i) (2 * j) ch = evn (evn ll hl) (evn lh hh) ∧
    px w t (2 * i) (2 * j + 1) ch = odd (evn ll hl) (evn lh hh) ∧
    px w t (2 * i + 1) (2 * j) ch = evn (odd ll hl) (odd lh hh) ∧
    px w t (2 * i + 1) (2 * j + 1) ch = odd (odd ll hl) (odd lh hh)

/-- R144, R149, R150: a level leaves every byte outside the even sub-rectangle of its region alone:
the unpaired column and row, and everything outside the region. -/
def Obligations.LevelsTouchOnlyTheEvenRectangle : Prop :=
  ∀ (w aw ah a : Nat) (b : Buffers),
    (∀ x y c, x < 2 * (aw / 2) → y < 2 * (ah / 2) → a ≠ sampleAddr w x y c) →
    pbByte (fwdLevel w aw ah b).pb a = pbByte b.pb a ∧
    pbByte (invLevel w aw ah b).pb a = pbByte b.pb a

/-- R152, R37: what SB held before a level never reaches PB, and what SB holds before a run never
reaches the observation at its end (R244). -/
def Obligations.ScratchNeverReachesThePixelBuffer : Prop :=
  (∀ (w aw ah : Nat) (pb sb sb' : Memory),
    (fwdLevel w aw ah ⟨pb, sb⟩).pb = (fwdLevel w aw ah ⟨pb, sb'⟩).pb ∧
    (invLevel w aw ah ⟨pb, sb⟩).pb = (invLevel w aw ah ⟨pb, sb'⟩).pb) ∧
  (∀ (s t : State) (sb : Memory) (n : Nat), runToEnd n s = .next t →
    ∃ u : State, runToEnd n { s with sb := sb } = .next u ∧ u.observation = t.observation)

/-- R154: degenerate regions, and a region against its even sub-rectangle. -/
def Obligations.DegenerateAndReducedRegions : Prop :=
  ∀ (w aw ah : Nat) (b : Buffers), aw ≤ w →
    (aw < 2 ∨ ah < 2 →
      (fwdLevel w aw ah b).pb = b.pb ∧ (invLevel w aw ah b).pb = b.pb) ∧
    ((fwdLevel w aw ah b).pb = (fwdLevel w (2 * (aw / 2)) (2 * (ah / 2)) b).pb ∧
      (invLevel w aw ah b).pb = (invLevel w (2 * (aw / 2)) (2 * (ah / 2)) b).pb) ∧
    (aw = 0 ∨ ah = 0 → fwdLevel w aw ah b = b ∧ invLevel w aw ah b = b)

/-- R145: the range of forward coefficients; the clamp never changes one, and unbias gives back the
truncated half difference; and the range of every intermediate of either level. -/
def Obligations.ForwardCoefficientRange : Prop :=
  ∀ p q : Byte,
    let sum := (p.toNat : Int) + (q.toNat : Int)
    let diff := (p.toNat : Int) - (q.toNat : Int)
    let a := fwdApprox (p.toNat : Int) (q.toNat : Int)
    let d := fwdDetail (p.toNat : Int) (q.toNat : Int)
    a = avg p.toNat q.toNat ∧ d = det p.toNat q.toNat ∧
    0 ≤ a ∧ a ≤ 255 ∧ 1 ≤ d ∧ d ≤ 255 ∧ clampByte a = a ∧ clampByte d = d ∧
    unbias d = diff.tdiv 2 ∧ sum ≤ 510 ∧ -255 ≤ diff ∧ diff ≤ 255 ∧
    -127 ≤ diff.tdiv 2 ∧ diff.tdiv 2 ≤ 127 ∧
    -128 ≤ p.toNat + unbias q.toNat ∧ p.toNat + unbias q.toNat ≤ 382 ∧
    -127 ≤ p.toNat - unbias q.toNat ∧ p.toNat - unbias q.toNat ≤ 383

/-- R156, one pair: forward then inverse gives the pair back when its sum is even, and else takes 1
from the larger sample. -/
def Obligations.PairRoundTrip : Prop :=
  ∀ p q : Byte,
    let a := fwdApprox (p.toNat : Int) (q.toNat : Int)
    let d := fwdDetail (p.toNat : Int) (q.toNat : Int)
    ((p.toNat + q.toNat) % 2 = 0 → invEven a d = p.toNat ∧ invOdd a d = q.toNat) ∧
    ((p.toNat + q.toNat) % 2 = 1 → q.toNat < p.toNat →
      invEven a d = p.toNat - 1 ∧ invOdd a d = q.toNat) ∧
    ((p.toNat + q.toNat) % 2 = 1 → p.toNat < q.toNat →
      invEven a d = p.toNat ∧ invOdd a d = q.toNat - 1)

/-- R156, images: with sides divisible by 2^n and every sample a multiple of 4^n, FWDN n and then
INVN n restore every byte of PB, whatever SB holds in between. -/
def Obligations.ExactRoundTripOnMultiplesOfFour : Prop :=
  ∀ (w h n : Nat) (b : Buffers) (sb : Memory),
    2 ^ n ∣ w → 2 ^ n ∣ h →
    (∀ x y c, x < w → y < h → 4 ^ n ∣ (pbByte b.pb (sampleAddr w x y c)).toNat) →
    ∀ a, pbByte (invLevels w h n ⟨(fwdLevels w h n b).pb, sb⟩).pb a = pbByte b.pb a

/-- R151: within a pass the order of the writes does not matter: in any order they leave every byte
of the buffer as the order of the pseudocode does. -/
def Obligations.PassOrderDoesNotMatter : Prop :=
  ∀ (w aw ah a : Nat) (src dst : Memory) (qs : List SampleWrite), aw ≤ w →
    (qs.Perm (fwdRowWrites w aw ah src) →
      (writeSamples w dst qs).written a = (writeSamples w dst (fwdRowWrites w aw ah src)).written a) ∧
    (qs.Perm (fwdColWrites w aw ah src) →
      (writeSamples w dst qs).written a = (writeSamples w dst (fwdColWrites w aw ah src)).written a) ∧
    (qs.Perm (invRowWrites w aw ah src) →
      (writeSamples w dst qs).written a = (writeSamples w dst (invRowWrites w aw ah src)).written a) ∧
    (qs.Perm (invColWrites w aw ah src) →
      (writeSamples w dst qs).written a = (writeSamples w dst (invColWrites w aw ah src)).written a)

/-- R153 and R236: a level treats the three channels alike and apart, and reads nothing but the even
sub-rectangle. Take a rectangle `u` by `v` that holds the even sub-rectangle (itself, the active
region, or more). If one buffer's lane c holds there what the other's lane f c holds, so it does after
the level. With f constant: a gray image stays gray. With f a permutation: permuted channels come out
permuted. With f the identity: the result depends on nothing but the pixels the level reads. -/
def Obligations.LanesAreIndependentAndAlike : Prop :=
  ∀ (w aw ah u v : Nat) (b b' : Buffers) (f : Channel → Channel),
    aw ≤ w → 2 * (aw / 2) ≤ u → u ≤ w → 2 * (ah / 2) ≤ v →
    (∀ x y c, x < u → y < v →
      pbByte b'.pb (sampleAddr w x y c) = pbByte b.pb (sampleAddr w x y (f c))) →
    ∀ x y c, x < u → y < v →
      pbByte (fwdLevel w aw ah b').pb (sampleAddr w x y c) =
          pbByte (fwdLevel w aw ah b).pb (sampleAddr w x y (f c)) ∧
      pbByte (invLevel w aw ah b').pb (sampleAddr w x y c) =
          pbByte (invLevel w aw ah b).pb (sampleAddr w x y (f c))

/-- R180: n + 1 levels at once have the PB effect of n levels and one more as a command of its own
(for INVN the coarsest first), whatever SB holds between the commands. -/
def Obligations.MultiLevelIsRepeatedSingleLevel : Prop :=
  ∀ (w h n : Nat) (pb sb sb' : Memory),
    (fwdLevels w h 0 ⟨pb, sb⟩).pb = pb ∧ (invLevels w h 0 ⟨pb, sb⟩).pb = pb ∧
    (fwdLevels w h (n + 1) ⟨pb, sb⟩).pb =
      (fwdLevel w (w / 2 ^ n) (h / 2 ^ n) ⟨(fwdLevels w h n ⟨pb, sb⟩).pb, sb'⟩).pb ∧
    (invLevels w h (n + 1) ⟨pb, sb⟩).pb =
      (invLevels w h n ⟨(invLevel w (w / 2 ^ n) (h / 2 ^ n) ⟨pb, sb⟩).pb, sb'⟩).pb

/-- R181: what lies outside the region of level m is left alone by level m and every later one. -/
def Obligations.LaterLevelsKeepEarlierDetails : Prop :=
  ∀ (w h m n x y : Nat) (c : Channel) (b : Buffers),
    m ≤ n → x < w → ¬(x < w / 2 ^ m ∧ y < h / 2 ^ m) →
    pbByte (fwdLevels w h n b).pb (sampleAddr w x y c) =
      pbByte (fwdLevels w h m b).pb (sampleAddr w x y c)

/-! ### The whole machine -/

/-- R39: `irq` is IRQ_EN and (DONE or ERR), STATUS.IRQ reads it, and clearing IRQ_EN, or DONE and ERR
both, drops it. -/
def Obligations.IrqIsALevel : Prop :=
  ∀ s : State,
    (s.irq = true ↔ s.irqEn = true ∧ (s.done = true ∨ s.err = true)) ∧
    (∃ w : Word, exec .rdStatus s = .next { s with rdata := some w } ∧ w.getLsbD 10 = s.irq) ∧
    (∀ d : Word, d.getLsbD 0 = false → ∃ t, exec (.wrCtrl d) s = .next t ∧ t.irq = false) ∧
    (∀ d : Word, d.getLsbD 1 = true → d.getLsbD 2 = true →
      ∃ t, exec (.wrStatus d) s = .next t ∧ t.irq = false)

/-- R178 with R112: while a command is in progress host transactions, however many and whatever they
are, neither end it nor change its record, PB or the operand registers. -/
def Obligations.HostStepsLeaveTheCommandInProgress : Prop :=
  ∀ (s t : State) (p : Pending) (n : Nat), s.pending = some p → n ≤ s.agenda.length →
    (∀ e ∈ s.agenda.take n, ∃ tr, e = Event.host tr) →
    Host.Core.run Sys2Proof.core n s = .next t →
    t.pending = some p ∧ t.pb = s.pb ∧ t.width = s.width ∧ t.height = s.height ∧ t.aw = s.aw ∧
    t.ah = s.ah ∧ t.pixX = s.pixX ∧ t.pixY = s.pixY ∧ t.agenda = s.agenda.drop n

/-- Every field of State with the instructions that can change it. A register that the host writes
changes by its own write only; DONE by a command or a STATUS write (R25); ERR and ERR_CODE by a write
that can be rejected or a STATUS write (R26, R203); PB by a port write; what is in progress by a
command. Nothing changes SB, CAPACITY or the agenda, and the port's word changes by a read (log 4). -/
def Obligations.EachFieldHasItsOnlyWriters : Prop :=
  ∀ (i : Instr) (s t : State), exec i s = .next t →
    (t.irqEn ≠ s.irqEn → ∃ d, i = .wrCtrl d) ∧
    (t.done ≠ s.done → ∃ (n : BitVec 5) (d : Word),
      i ∈ [Instr.nop, .fwd1, .inv1, .fwdn n, .invn n, .wrCmd d, .wrStatus d]) ∧
    (t.err ≠ s.err ∨ t.errCode ≠ s.errCode → ∃ (n : BitVec 5) (d : Word),
      i ∈ [Instr.nop, .fwd1, .inv1, .fwdn n, .invn n, .wrCmd d, .wrWidth d, .wrHeight d, .wrAw d,
        .wrAh d, .wrPixX d, .wrPixY d, .wrPixData d, .wrPixGray d, .wrStatus d]) ∧
    (t.width ≠ s.width → ∃ d, i = .wrWidth d) ∧
    (t.height ≠ s.height → ∃ d, i = .wrHeight d) ∧
    (t.aw ≠ s.aw → ∃ d, i = .wrAw d) ∧
    (t.ah ≠ s.ah → ∃ d, i = .wrAh d) ∧
    (t.pixX ≠ s.pixX → ∃ d, i = .wrPixX d) ∧
    (t.pixY ≠ s.pixY → ∃ d, i = .wrPixY d) ∧
    (t.pb ≠ s.pb → ∃ d, i = .wrPixData d ∨ i = .wrPixGray d) ∧
    (t.pending ≠ s.pending → ∃ (n : BitVec 5) (d : Word),
      i ∈ [Instr.fwd1, .inv1, .fwdn n, .invn n, .wrCmd d]) ∧
    (t.rdata ≠ s.rdata →
      i ∈ [Instr.rdId, .rdCtrl, .rdStatus, .rdCmd, .rdWidth, .rdHeight, .rdAw, .rdAh, .rdPixX,
        .rdPixY, .rdPixData, .rdPixGray, .rdCapacity, .rdW13, .rdW14, .rdW15]) ∧
    t.sb = s.sb ∧ t.capacity = s.capacity ∧ t.agenda = s.agenda

/-- R66: while a command is in progress no instruction changes it, its operands or PB. -/
def Obligations.BusyCommandOwnsItsOperands : Prop :=
  ∀ (i : Instr) (s t : State) (p : Pending), s.pending = some p → exec i s = .next t →
    t.pending = some p ∧ t.width = s.width ∧ t.height = s.height ∧ t.aw = s.aw ∧ t.ah = s.ah ∧
    t.pixX = s.pixX ∧ t.pixY = s.pixY ∧ t.pb = s.pb ∧ t.sb = s.sb

/-- R202, R203, R208: an error in force stays with its code until a STATUS write with bit 2 set, and
an error that an instruction raises has a code from 1 to 4. -/
def Obligations.FirstErrorIsLatched : Prop :=
  ∀ (i : Instr) (s t : State), exec i s = .next t →
    (s.err = true →
      (t.err = true ∧ t.errCode = s.errCode) ∨
      (t.err = false ∧ t.errCode = 0 ∧ ∃ d, i = .wrStatus d ∧ d.getLsbD 2 = true)) ∧
    (s.err = false → t.err = true → t.errCode ∈ [1#4, 2#4, 3#4, 4#4])

/-- R178, R232: a command in progress ends only by its completion, which sets DONE, or by a reset. -/
def Obligations.BusyEndsOnlyByCompletionOrReset : Prop :=
  ∀ s t : State, step s = .next t → s.pending ≠ none → t.pending = none →
    (t.done = true ∧ (s.agenda = [] ∨ ∃ rest, s.agenda = .engine :: rest)) ∨
    (∃ rest, s.agenda = .rst :: rest)

/-- A step whose event is a transfer that decodes runs the instruction on the state less that event. -/
def Obligations.StepRunsTheDecodedInstruction : Prop :=
  ∀ (s : State) (t : Transfer) (rest : List Event) (i : Instr),
    s.agenda = .host t :: rest → decode t = .ok i → step s = exec i { s with agenda := rest }

/-- A command word that is no command, written to CMD, is reported: BUSY while busy, else ILLEGAL_CMD
(R204). -/
def Obligations.StepReportsIllegalCommandWords : Prop :=
  ∀ (s : State) (w : Word) (rest : List Event),
    s.agenda = .host (.cmd w) :: rest → (∀ i, decode (.cmd w) ≠ .ok i) →
    step s = .next
      (rejected (if s.pending = none then 1 else 4) { s with agenda := rest })

/-- The model's idle steps (log 8, a DESIGN CHOICE): with nothing in progress an engine turn passes,
and an empty agenda leaves the state as it is. -/
def Obligations.IdleStepsChangeNothing : Prop :=
  (∀ (s : State) (rest : List Event), s.pending = none → s.agenda = .engine :: rest →
    step s = .next { s with agenda := rest }) ∧
  (∀ s : State, s.pending = none → s.agenda = [] → step s = .next s)

/-- R230, R232: the reset event puts the registers at their reset values, abandons a command in
progress and leaves no byte of PB or SB written; the capacity and the rest of the agenda stay. -/
def Obligations.ResetEventRestoresResetState : Prop :=
  ∀ (s : State) (rest : List Event), s.agenda = .rst :: rest →
    ∃ pb sb : Memory, step s = .next
      { irqEn := false, done := false, err := false, errCode := 0, width := 0, height := 0, aw := 0,
        ah := 0, pixX := 0, pixY := 0, capacity := s.capacity, pb := pb, sb := sb, pending := none,
        agenda := rest, rdata := none } ∧
      (∀ a, pb.written a = none) ∧ (∀ a, sb.written a = none)

/-- R41: the values after reset. -/
def Obligations.ResetStateValues : Prop :=
  State.reset.irqEn = false ∧ State.reset.done = false ∧ State.reset.err = false ∧
  State.reset.errCode = 0 ∧ State.reset.width = 0 ∧ State.reset.height = 0 ∧ State.reset.aw = 0 ∧
  State.reset.ah = 0 ∧ State.reset.pixX = 0 ∧ State.reset.pixY = 0 ∧ State.reset.pending = none ∧
  State.reset.irq = false ∧ 1 ≤ State.reset.capacity.toNat ∧
  (∀ a, State.reset.pb.written a = none) ∧ (∀ a, State.reset.sb.written a = none) ∧
  exec .rdCapacity State.reset = .next { State.reset with rdata := some State.reset.capacity } ∧
  exec .rdStatus State.reset = .next { State.reset with rdata := some 0x00000200 } ∧
  exec .rdId State.reset = .next { State.reset with rdata := some 0x48574531 } ∧
  exec .rdPixData State.reset = .next { State.reset with rdata := some 0 }

/-- The invariant holds after reset. -/
def Obligations.InvariantHoldsAtReset : Prop :=
  State.reset.Inv

/-- Every step keeps the invariant: the buffers stay in canonical form within their capacity, ERR_CODE
agrees with ERR and is at most 4, DONE is 0 while busy, and the command in progress fits and holds the
live registers. -/
def Obligations.StepKeepsTheInvariant : Prop :=
  ∀ s t : State, s.Inv → step s = .next t → t.Inv

/-- R100, R178, R179: in a state that meets the invariant every step goes on: no transaction faults at
the port, and a completion never fails. -/
def Obligations.InvariantStatesNeverStop : Prop :=
  ∀ s : State, s.Inv → ∃ t, step s = .next t

/-- R178, R243, R244: every run ends. Within one step more than the agenda has events there is a first
state in which the host has no transaction left and nothing is in progress; the run of the program
stops there, and whatever engine turns or resets the agenda has left come after the end. With them,
every event is taken and nothing is in progress one step after the last. -/
def Obligations.EveryRunEndsWithNothingPending : Prop :=
  ∀ s : State, s.Inv → ∃ (n : Nat) (t : State), n ≤ s.agenda.length + 1 ∧
    Host.Core.run Sys2Proof.core n s = .next t ∧
    (∀ tr, Event.host tr ∉ t.agenda) ∧ t.pending = none ∧
    (∀ m, m < n → ∀ u, Host.Core.run Sys2Proof.core m s = .next u →
      (∃ tr, Event.host tr ∈ u.agenda) ∨ u.pending ≠ none) ∧
    runToEnd (s.agenda.length + 1) s = .next t ∧
    ∃ u : State, Host.Core.run Sys2Proof.core (s.agenda.length + 1) s = .next u ∧
      u.agenda = [] ∧ u.pending = none
end

