-- ==== Sys2Proof/Laws/Decode.lean ====
section
/-! SUPPORT. The fields of a command word and of a BUS value that was put together from its fields,
and the value put together again from its fields. -/

namespace Sys2Proof

theorem busWE_busValue (we : Bool) (a : BitVec 4) (d : Word) : busWE (busValue we a d) = we := by
  have h : (BitVec.ofBool we ++ a ++ d).getLsbD 36 = (BitVec.ofBool we).getLsbD 0 := by
    rw [BitVec.getLsbD_append, BitVec.getLsbD_append]; rfl
  exact h.trans (by simp)

theorem busAddr_busValue (we : Bool) (a : BitVec 4) (d : Word) : busAddr (busValue we a d) = a := by
  apply BitVec.eq_of_getLsbD_eq
  intro i hi
  have h : ((BitVec.ofBool we ++ a ++ d).extractLsb' 32 4).getLsbD i = a.getLsbD i := by
    rw [BitVec.getLsbD_extractLsb', BitVec.getLsbD_append, BitVec.getLsbD_append]; simp [hi]
  exact h

theorem busData_busValue (we : Bool) (a : BitVec 4) (d : Word) : busData (busValue we a d) = d := by
  apply BitVec.eq_of_getLsbD_eq
  intro i hi
  have h : ((BitVec.ofBool we ++ a ++ d).extractLsb' 0 32).getLsbD i = d.getLsbD i := by
    rw [BitVec.getLsbD_extractLsb', BitVec.getLsbD_append]; simp [hi]
  exact h

/-- A BUS value is put together from its fields (R75). -/
theorem busValue_fields (v : BitVec 37) : busValue (busWE v) (busAddr v) (busData v) = v := by
  apply BitVec.eq_of_getLsbD_eq
  intro i hi
  have h : (BitVec.ofBool (v.getLsbD 36) ++ v.extractLsb' 32 4 ++ v.extractLsb' 0 32).getLsbD i =
      v.getLsbD i := by
    simp only [BitVec.getLsbD_append, BitVec.getLsbD_extractLsb']
    by_cases h1 : i < 32
    · simp [h1]
    · by_cases h2 : i < 36
      · simp [h1, show i - 32 < 4 by omega, show 32 + (i - 32) = i by omega]
      · obtain rfl : i = 36 := by omega
        simp
  exact h

theorem cmdOp_cmdWord (op : BitVec 8) (n : BitVec 5) : cmdOp (cmdWord op n) = op := by
  apply BitVec.eq_of_getLsbD_eq
  intro i hi
  have h : (((0 : BitVec 19) ++ n ++ op).extractLsb' 0 8).getLsbD i = op.getLsbD i := by
    rw [BitVec.getLsbD_extractLsb', BitVec.getLsbD_append]; simp [hi]
  exact h

theorem cmdLevels_cmdWord (op : BitVec 8) (n : BitVec 5) : cmdLevels (cmdWord op n) = n := by
  apply BitVec.eq_of_getLsbD_eq
  intro i hi
  have h : (((0 : BitVec 19) ++ n ++ op).extractLsb' 8 5).getLsbD i = n.getLsbD i := by
    rw [BitVec.getLsbD_extractLsb', BitVec.getLsbD_append, BitVec.getLsbD_append]; simp [hi]
  exact h

theorem cmdRsvd_cmdWord (op : BitVec 8) (n : BitVec 5) : cmdRsvd (cmdWord op n) = 0#19 := by
  apply BitVec.eq_of_getLsbD_eq
  intro i hi
  have h : (((0 : BitVec 19) ++ n ++ op).extractLsb' 13 19).getLsbD i = (0 : BitVec 19).getLsbD i := by
    rw [BitVec.getLsbD_extractLsb', BitVec.getLsbD_append, BitVec.getLsbD_append]
    simp [show ¬ 13 + i < 8 by omega, show ¬ 13 + i - 8 < 5 by omega]
  exact h

/-- A command word with no reserved bit set is put together from OP and LEVELS (R70). -/
theorem cmdWord_fields {w : Word} (hr : cmdRsvd w = 0#19) : cmdWord (cmdOp w) (cmdLevels w) = w := by
  apply BitVec.eq_of_getLsbD_eq
  intro i hi
  have h : (w.extractLsb' 13 19 ++ w.extractLsb' 8 5 ++ w.extractLsb' 0 8).getLsbD i =
      w.getLsbD i := by
    simp only [BitVec.getLsbD_append, BitVec.getLsbD_extractLsb']
    by_cases h1 : i < 8
    · simp [h1]
    · by_cases h2 : i < 13
      · simp [h1, show i - 8 < 5 by omega, show 8 + (i - 8) = i by omega]
      · simp [h1, show ¬ i - 8 < 5 by omega, show i - 8 - 5 < 19 by omega,
          show 13 + (i - 8 - 5) = i by omega]
  rw [← h]
  unfold cmdRsvd at hr
  rw [hr]
  rfl

/-- The window's indexes and names agree (10_state.md R21). -/
theorem regAt_regIndex (r : Reg) : regAt (regIndex r) = r := by
  cases r <;> decide

theorem regIndex_regAt : ∀ a : BitVec 4, regIndex (regAt a) = a := by
  decide

end Sys2Proof
end

