-- ==== Sys2Proof/Laws/Memory.lean ====
section
/-! SUPPORT. The laws of the buffers: a store is read back, leaves every other byte alone, and keeps
the canonical form; the same for a list of clamped writes. -/

namespace Sys2Proof.Machine

/-! ### One store -/

theorem lookupCell_insertCell (l : List Host.Cell) (a b : Nat) (v : Byte) :
    lookupCell (insertCell a v l) b = if b = a then some v else lookupCell l b := by
  induction l with
  | nil => simp [insertCell, lookupCell]
  | cons cell l ih =>
    obtain ⟨k, u⟩ := cell
    simp only [insertCell]
    split
    · simp [lookupCell]
    · split
      · next h => subst h; simp only [lookupCell]; split <;> rfl
      · next h1 h2 =>
        simp only [lookupCell, ih]
        split
        · next h => subst h; rw [if_neg (fun h => h2 h.symm)]
        · rfl

theorem mem_insertCell {l : List Host.Cell} {a : Nat} {v : Byte} {cell : Host.Cell}
    (h : cell ∈ insertCell a v l) : cell = (a, v) ∨ cell ∈ l := by
  induction l with
  | nil => simpa [insertCell] using h
  | cons head l ih =>
    obtain ⟨k, u⟩ := head
    simp only [insertCell] at h
    split at h
    · simpa using h
    · split at h
      · rcases List.mem_cons.1 h with h | h
        · exact .inl h
        · exact .inr (List.mem_cons_of_mem _ h)
      · rcases List.mem_cons.1 h with h | h
        · exact .inr (by simp [h])
        · exact (ih h).imp_right (List.mem_cons_of_mem _)

theorem insertCell_rising {l : List Host.Cell} (a : Nat) (v : Byte)
    (h : l.Pairwise (fun p q => p.1 < q.1)) :
    (insertCell a v l).Pairwise (fun p q => p.1 < q.1) := by
  induction l with
  | nil => simp [insertCell]
  | cons head l ih =>
    obtain ⟨k, u⟩ := head
    obtain ⟨hk, hl⟩ := List.pairwise_cons.1 h
    simp only [insertCell]
    split
    · next hlt =>
      refine List.pairwise_cons.2 ⟨fun q hq => ?_, h⟩
      rcases List.mem_cons.1 hq with rfl | hq
      · exact hlt
      · exact Nat.lt_trans hlt (hk q hq)
    · split
      · next heq => subst heq; exact List.pairwise_cons.2 ⟨hk, hl⟩
      · next h1 h2 =>
        refine List.pairwise_cons.2 ⟨fun q hq => ?_, ih hl⟩
        rcases mem_insertCell hq with rfl | hq
        · show k < a; omega
        · exact hk q hq

/-- What a store does to what counts as written. -/
theorem written_store (m : Memory) (a b : Nat) (v : Byte) :
    (m.store a v).written b = if b = a then some v else m.written b :=
  lookupCell_insertCell m.cells a b v

@[simp] theorem store_epoch (m : Memory) (a : Nat) (v : Byte) : (m.store a v).epoch = m.epoch := rfl

/-- A store is read back from PB and leaves every other byte of it alone. -/
theorem pbByte_store (m : Memory) (a b : Nat) (v : Byte) :
    pbByte (m.store a v) b = if b = a then v else pbByte m b := by
  simp only [pbByte, written_store, store_epoch]; split <;> rfl

/-- The same for SB. -/
theorem sbByte_store (m : Memory) (a b : Nat) (v : Byte) :
    sbByte (m.store a v) b = if b = a then v else sbByte m b := by
  simp only [sbByte, written_store, store_epoch]; split <;> rfl

/-- A store keeps the canonical form. -/
theorem store_wf {m : Memory} (a : Nat) (v : Byte) (h : m.wf) : (m.store a v).wf :=
  insertCell_rising a v h

/-- A store of a byte of an entry that exists keeps the buffer within its capacity. -/
theorem store_fits {cap : Word} {m : Memory} {a : Nat} (v : Byte) (h : m.Fits cap)
    (ha : a < 3 * cap.toNat) : (m.store a v).Fits cap :=
  ⟨store_wf a v h.wf, fun cell hc => by
    rcases mem_insertCell hc with rfl | hc
    · exact ha
    · exact h.bounded cell hc⟩

/-- Contents made unspecified are in canonical form. -/
theorem scramble_fits (cap : Word) (m : Memory) : m.scramble.Fits cap :=
  ⟨List.Pairwise.nil, fun _ h => absurd h List.not_mem_nil⟩

/-- The buffers after reset are in canonical form. -/
theorem reset_buffers_fit (cap : Word) :
    State.reset.pb.Fits cap ∧ State.reset.sb.Fits cap :=
  ⟨⟨List.Pairwise.nil, fun _ h => absurd h List.not_mem_nil⟩,
   ⟨List.Pairwise.nil, fun _ h => absurd h List.not_mem_nil⟩⟩

/-! ### A list of clamped writes -/

@[simp] theorem writeSamples_nil (w : Nat) (m : Memory) : writeSamples w m [] = m := rfl

@[simp] theorem writeSamples_cons (w : Nat) (m : Memory) (q : SampleWrite) (qs : List SampleWrite) :
    writeSamples w m (q :: qs) = writeSamples w (writeSample w m q) qs := rfl

theorem writeSamples_append (w : Nat) (m : Memory) (qs rs : List SampleWrite) :
    writeSamples w m (qs ++ rs) = writeSamples w (writeSamples w m qs) rs :=
  List.foldl_append

@[simp] theorem writeSamples_epoch (w : Nat) (m : Memory) (qs : List SampleWrite) :
    (writeSamples w m qs).epoch = m.epoch := by
  induction qs generalizing m with
  | nil => rfl
  | cons q qs ih => exact ih _

/-- Clamped writes keep the canonical form. -/
theorem writeSamples_wf {w : Nat} {m : Memory} (qs : List SampleWrite) (h : m.wf) :
    (writeSamples w m qs).wf := by
  induction qs generalizing m with
  | nil => exact h
  | cons q qs ih => exact ih (store_wf _ _ h)

/-- Clamped writes to entries that exist keep the buffer within its capacity. -/
theorem writeSamples_fits {cap : Word} {w : Nat} {m : Memory} {qs : List SampleWrite}
    (h : m.Fits cap) (hq : ∀ q ∈ qs, sampleAddr w q.x q.y q.c < 3 * cap.toNat) :
    (writeSamples w m qs).Fits cap := by
  induction qs generalizing m with
  | nil => exact h
  | cons q qs ih =>
    exact ih (store_fits _ h (hq q List.mem_cons_self)) fun r hr => hq r (List.mem_cons_of_mem _ hr)

/-- A byte that none of the writes is to keeps what counts as written there. -/
theorem written_writeSamples_other {w : Nat} {m : Memory} {qs : List SampleWrite} {a : Nat}
    (h : ∀ q ∈ qs, a ≠ sampleAddr w q.x q.y q.c) :
    (writeSamples w m qs).written a = m.written a := by
  induction qs generalizing m with
  | nil => rfl
  | cons q qs ih =>
    rw [writeSamples_cons, ih fun r hr => h r (List.mem_cons_of_mem _ hr), writeSample,
      written_store, if_neg (h q List.mem_cons_self)]

/-- Where the writes to a byte all store one value and there is one, that value is written there. -/
theorem written_writeSamples_of_mem {w : Nat} {m : Memory} {qs : List SampleWrite}
    {q : SampleWrite} (hq : q ∈ qs)
    (h : ∀ r ∈ qs, sampleAddr w r.x r.y r.c = sampleAddr w q.x q.y q.c → r.v = q.v) :
    (writeSamples w m qs).written (sampleAddr w q.x q.y q.c) = some (clampedByte q.v) := by
  induction qs generalizing m q with
  | nil => exact absurd hq List.not_mem_nil
  | cons r qs ih =>
    rw [writeSamples_cons]
    by_cases hmem : ∃ r' ∈ qs, sampleAddr w r'.x r'.y r'.c = sampleAddr w q.x q.y q.c
    · obtain ⟨r', hr', hadr⟩ := hmem
      have hv : r'.v = q.v := h r' (List.mem_cons_of_mem _ hr') hadr
      have := ih (m := writeSample w m r) (q := r') hr' fun r2 hr2 h2 => by
        rw [hv]; exact h r2 (List.mem_cons_of_mem _ hr2) (h2.trans hadr)
      rw [← hadr, this, hv]
    · have hrest : ∀ r' ∈ qs, sampleAddr w q.x q.y q.c ≠ sampleAddr w r'.x r'.y r'.c :=
        fun r' hr' he => hmem ⟨r', hr', he.symm⟩
      rw [written_writeSamples_other hrest, writeSample, written_store]
      rcases List.mem_cons.1 hq with rfl | hq
      · rw [if_pos rfl]
      · exact absurd rfl (hrest q hq)

/-- Reading PB where nothing was written by the list. -/
theorem pbByte_writeSamples_other {w : Nat} {m : Memory} {qs : List SampleWrite} {a : Nat}
    (h : ∀ q ∈ qs, a ≠ sampleAddr w q.x q.y q.c) :
    pbByte (writeSamples w m qs) a = pbByte m a := by
  rw [pbByte, written_writeSamples_other h, writeSamples_epoch, pbByte]

/-! ### Coordinates -/

/-- Within the row stride a byte key names one coordinate and one channel. -/
theorem sampleAddr_inj {w x y x' y' : Nat} {c c' : Channel} (hx : x < w) (hx' : x' < w)
    (h : sampleAddr w x y c = sampleAddr w x' y' c') : x = x' ∧ y = y' ∧ c = c' := by
  have hc := c.isLt
  have hc' := c'.isLt
  have hi : y * w + x = y' * w + x' := by unfold sampleAddr at h; omega
  have hcc : c.val = c'.val := by unfold sampleAddr at h; omega
  have hw : 0 < w := Nat.lt_of_le_of_lt (Nat.zero_le _) hx
  have hy : y = y' := by
    have h1 : (y * w + x) / w = y := by
      rw [Nat.add_comm, Nat.add_mul_div_right _ _ hw, Nat.div_eq_of_lt hx, Nat.zero_add]
    have h2 : (y' * w + x') / w = y' := by
      rw [Nat.add_comm, Nat.add_mul_div_right _ _ hw, Nat.div_eq_of_lt hx', Nat.zero_add]
    rw [← h1, ← h2, hi]
  subst hy
  exact ⟨by omega, rfl, Fin.ext hcc⟩

/-- A coordinate of an image that fits is a byte of an entry that exists (20_memory.md R51). -/
theorem sampleAddr_lt {w h x y n : Nat} (c : Channel) (hx : x < w) (hy : y < h) (hn : w * h ≤ n) :
    sampleAddr w x y c < 3 * n := by
  have hc := c.isLt
  have h1 : y * w + x < (y + 1) * w := by rw [Nat.add_mul, Nat.one_mul]; omega
  have h2 : (y + 1) * w ≤ h * w := Nat.mul_le_mul_right w hy
  have h3 : h * w = w * h := Nat.mul_comm h w
  unfold sampleAddr
  omega

/-- A stored sample is its own clamp (20_memory.md R53). -/
@[simp] theorem clampedByte_byte (v : Byte) : clampedByte (v.toNat : Int) = v := by
  have h := v.isLt
  have : clampByte (v.toNat : Int) = (v.toNat : Int) := by
    unfold clampByte; split
    · omega
    · split <;> omega
  rw [clampedByte, this, Int.toNat_natCast, BitVec.ofNat_toNat, BitVec.setWidth_eq]

/-- clampByte lands in [0, 255], and the byte stored reads back as it (00_scope.md R10). -/
theorem clampedByte_toNat (v : Int) : ((clampedByte v).toNat : Int) = clampByte v := by
  have h : 0 ≤ clampByte v ∧ clampByte v ≤ 255 := by
    unfold clampByte; split
    · omega
    · split <;> omega
  rw [clampedByte, BitVec.toNat_ofNat]
  omega

end Sys2Proof.Machine
end

