-- ==== Sys2Proof/Laws/State.lean ====
section
/-! SUPPORT. One lemma per field of State and per named update of it: what the field is after the
update. Proofs cite these and never unfold a record update. -/

namespace Sys2Proof.Machine

/-! ### answer -/

@[simp] theorem answer_irqEn (w : Word) (s : State) : (answer w s).irqEn = s.irqEn := rfl
@[simp] theorem answer_done (w : Word) (s : State) : (answer w s).done = s.done := rfl
@[simp] theorem answer_err (w : Word) (s : State) : (answer w s).err = s.err := rfl
@[simp] theorem answer_errCode (w : Word) (s : State) : (answer w s).errCode = s.errCode := rfl
@[simp] theorem answer_width (w : Word) (s : State) : (answer w s).width = s.width := rfl
@[simp] theorem answer_height (w : Word) (s : State) : (answer w s).height = s.height := rfl
@[simp] theorem answer_aw (w : Word) (s : State) : (answer w s).aw = s.aw := rfl
@[simp] theorem answer_ah (w : Word) (s : State) : (answer w s).ah = s.ah := rfl
@[simp] theorem answer_pixX (w : Word) (s : State) : (answer w s).pixX = s.pixX := rfl
@[simp] theorem answer_pixY (w : Word) (s : State) : (answer w s).pixY = s.pixY := rfl
@[simp] theorem answer_capacity (w : Word) (s : State) : (answer w s).capacity = s.capacity := rfl
@[simp] theorem answer_pb (w : Word) (s : State) : (answer w s).pb = s.pb := rfl
@[simp] theorem answer_sb (w : Word) (s : State) : (answer w s).sb = s.sb := rfl
@[simp] theorem answer_pending (w : Word) (s : State) : (answer w s).pending = s.pending := rfl
@[simp] theorem answer_agenda (w : Word) (s : State) : (answer w s).agenda = s.agenda := rfl
@[simp] theorem answer_rdata (w : Word) (s : State) : (answer w s).rdata = some w := rfl

/-! ### raiseError -/

@[simp] theorem raiseError_irqEn (e : HweError) (s : State) : (raiseError e s).irqEn = s.irqEn := rfl
@[simp] theorem raiseError_done (e : HweError) (s : State) : (raiseError e s).done = s.done := rfl
@[simp] theorem raiseError_err (e : HweError) (s : State) : (raiseError e s).err = true := rfl
@[simp] theorem raiseError_errCode (e : HweError) (s : State) : (raiseError e s).errCode = if s.err then s.errCode else e.code := rfl
@[simp] theorem raiseError_width (e : HweError) (s : State) : (raiseError e s).width = s.width := rfl
@[simp] theorem raiseError_height (e : HweError) (s : State) : (raiseError e s).height = s.height := rfl
@[simp] theorem raiseError_aw (e : HweError) (s : State) : (raiseError e s).aw = s.aw := rfl
@[simp] theorem raiseError_ah (e : HweError) (s : State) : (raiseError e s).ah = s.ah := rfl
@[simp] theorem raiseError_pixX (e : HweError) (s : State) : (raiseError e s).pixX = s.pixX := rfl
@[simp] theorem raiseError_pixY (e : HweError) (s : State) : (raiseError e s).pixY = s.pixY := rfl
@[simp] theorem raiseError_capacity (e : HweError) (s : State) : (raiseError e s).capacity = s.capacity := rfl
@[simp] theorem raiseError_pb (e : HweError) (s : State) : (raiseError e s).pb = s.pb := rfl
@[simp] theorem raiseError_sb (e : HweError) (s : State) : (raiseError e s).sb = s.sb := rfl
@[simp] theorem raiseError_pending (e : HweError) (s : State) : (raiseError e s).pending = s.pending := rfl
@[simp] theorem raiseError_agenda (e : HweError) (s : State) : (raiseError e s).agenda = s.agenda := rfl
@[simp] theorem raiseError_rdata (e : HweError) (s : State) : (raiseError e s).rdata = s.rdata := rfl

/-! ### acknowledge -/

@[simp] theorem acknowledge_irqEn (v : Word) (s : State) : (acknowledge v s).irqEn = s.irqEn := rfl
@[simp] theorem acknowledge_done (v : Word) (s : State) : (acknowledge v s).done = (s.done && !v.getLsbD 1) := rfl
@[simp] theorem acknowledge_err (v : Word) (s : State) : (acknowledge v s).err = (s.err && !v.getLsbD 2) := rfl
@[simp] theorem acknowledge_errCode (v : Word) (s : State) : (acknowledge v s).errCode = if v.getLsbD 2 then 0 else s.errCode := rfl
@[simp] theorem acknowledge_width (v : Word) (s : State) : (acknowledge v s).width = s.width := rfl
@[simp] theorem acknowledge_height (v : Word) (s : State) : (acknowledge v s).height = s.height := rfl
@[simp] theorem acknowledge_aw (v : Word) (s : State) : (acknowledge v s).aw = s.aw := rfl
@[simp] theorem acknowledge_ah (v : Word) (s : State) : (acknowledge v s).ah = s.ah := rfl
@[simp] theorem acknowledge_pixX (v : Word) (s : State) : (acknowledge v s).pixX = s.pixX := rfl
@[simp] theorem acknowledge_pixY (v : Word) (s : State) : (acknowledge v s).pixY = s.pixY := rfl
@[simp] theorem acknowledge_capacity (v : Word) (s : State) : (acknowledge v s).capacity = s.capacity := rfl
@[simp] theorem acknowledge_pb (v : Word) (s : State) : (acknowledge v s).pb = s.pb := rfl
@[simp] theorem acknowledge_sb (v : Word) (s : State) : (acknowledge v s).sb = s.sb := rfl
@[simp] theorem acknowledge_pending (v : Word) (s : State) : (acknowledge v s).pending = s.pending := rfl
@[simp] theorem acknowledge_agenda (v : Word) (s : State) : (acknowledge v s).agenda = s.agenda := rfl
@[simp] theorem acknowledge_rdata (v : Word) (s : State) : (acknowledge v s).rdata = s.rdata := rfl

/-! ### completeNow -/

@[simp] theorem completeNow_irqEn (s : State) : (completeNow s).irqEn = s.irqEn := rfl
@[simp] theorem completeNow_done (s : State) : (completeNow s).done = true := rfl
@[simp] theorem completeNow_err (s : State) : (completeNow s).err = s.err := rfl
@[simp] theorem completeNow_errCode (s : State) : (completeNow s).errCode = s.errCode := rfl
@[simp] theorem completeNow_width (s : State) : (completeNow s).width = s.width := rfl
@[simp] theorem completeNow_height (s : State) : (completeNow s).height = s.height := rfl
@[simp] theorem completeNow_aw (s : State) : (completeNow s).aw = s.aw := rfl
@[simp] theorem completeNow_ah (s : State) : (completeNow s).ah = s.ah := rfl
@[simp] theorem completeNow_pixX (s : State) : (completeNow s).pixX = s.pixX := rfl
@[simp] theorem completeNow_pixY (s : State) : (completeNow s).pixY = s.pixY := rfl
@[simp] theorem completeNow_capacity (s : State) : (completeNow s).capacity = s.capacity := rfl
@[simp] theorem completeNow_pb (s : State) : (completeNow s).pb = s.pb := rfl
@[simp] theorem completeNow_sb (s : State) : (completeNow s).sb = s.sb := rfl
@[simp] theorem completeNow_pending (s : State) : (completeNow s).pending = s.pending := rfl
@[simp] theorem completeNow_agenda (s : State) : (completeNow s).agenda = s.agenda := rfl
@[simp] theorem completeNow_rdata (s : State) : (completeNow s).rdata = s.rdata := rfl

/-! ### accept -/

@[simp] theorem accept_irqEn (op : LevelOp) (n : BitVec 5) (s : State) : (accept op n s).irqEn = s.irqEn := rfl
@[simp] theorem accept_done (op : LevelOp) (n : BitVec 5) (s : State) : (accept op n s).done = false := rfl
@[simp] theorem accept_err (op : LevelOp) (n : BitVec 5) (s : State) : (accept op n s).err = s.err := rfl
@[simp] theorem accept_errCode (op : LevelOp) (n : BitVec 5) (s : State) : (accept op n s).errCode = s.errCode := rfl
@[simp] theorem accept_width (op : LevelOp) (n : BitVec 5) (s : State) : (accept op n s).width = s.width := rfl
@[simp] theorem accept_height (op : LevelOp) (n : BitVec 5) (s : State) : (accept op n s).height = s.height := rfl
@[simp] theorem accept_aw (op : LevelOp) (n : BitVec 5) (s : State) : (accept op n s).aw = s.aw := rfl
@[simp] theorem accept_ah (op : LevelOp) (n : BitVec 5) (s : State) : (accept op n s).ah = s.ah := rfl
@[simp] theorem accept_pixX (op : LevelOp) (n : BitVec 5) (s : State) : (accept op n s).pixX = s.pixX := rfl
@[simp] theorem accept_pixY (op : LevelOp) (n : BitVec 5) (s : State) : (accept op n s).pixY = s.pixY := rfl
@[simp] theorem accept_capacity (op : LevelOp) (n : BitVec 5) (s : State) : (accept op n s).capacity = s.capacity := rfl
@[simp] theorem accept_pb (op : LevelOp) (n : BitVec 5) (s : State) : (accept op n s).pb = s.pb := rfl
@[simp] theorem accept_sb (op : LevelOp) (n : BitVec 5) (s : State) : (accept op n s).sb = s.sb := rfl
@[simp] theorem accept_pending (op : LevelOp) (n : BitVec 5) (s : State) : (accept op n s).pending = some { op := op, levels := n, w := s.width, h := s.height, aw := s.aw, ah := s.ah } := rfl
@[simp] theorem accept_agenda (op : LevelOp) (n : BitVec 5) (s : State) : (accept op n s).agenda = s.agenda := rfl
@[simp] theorem accept_rdata (op : LevelOp) (n : BitVec 5) (s : State) : (accept op n s).rdata = s.rdata := rfl

/-! ### writePixel -/

@[simp] theorem writePixel_irqEn (r g b : Byte) (s : State) : (writePixel r g b s).irqEn = s.irqEn := rfl
@[simp] theorem writePixel_done (r g b : Byte) (s : State) : (writePixel r g b s).done = s.done := rfl
@[simp] theorem writePixel_err (r g b : Byte) (s : State) : (writePixel r g b s).err = s.err := rfl
@[simp] theorem writePixel_errCode (r g b : Byte) (s : State) : (writePixel r g b s).errCode = s.errCode := rfl
@[simp] theorem writePixel_width (r g b : Byte) (s : State) : (writePixel r g b s).width = s.width := rfl
@[simp] theorem writePixel_height (r g b : Byte) (s : State) : (writePixel r g b s).height = s.height := rfl
@[simp] theorem writePixel_aw (r g b : Byte) (s : State) : (writePixel r g b s).aw = s.aw := rfl
@[simp] theorem writePixel_ah (r g b : Byte) (s : State) : (writePixel r g b s).ah = s.ah := rfl
@[simp] theorem writePixel_pixX (r g b : Byte) (s : State) : (writePixel r g b s).pixX = s.pixX := rfl
@[simp] theorem writePixel_pixY (r g b : Byte) (s : State) : (writePixel r g b s).pixY = s.pixY := rfl
@[simp] theorem writePixel_capacity (r g b : Byte) (s : State) : (writePixel r g b s).capacity = s.capacity := rfl
@[simp] theorem writePixel_sb (r g b : Byte) (s : State) : (writePixel r g b s).sb = s.sb := rfl
@[simp] theorem writePixel_pending (r g b : Byte) (s : State) : (writePixel r g b s).pending = s.pending := rfl
@[simp] theorem writePixel_agenda (r g b : Byte) (s : State) : (writePixel r g b s).agenda = s.agenda := rfl
@[simp] theorem writePixel_rdata (r g b : Byte) (s : State) : (writePixel r g b s).rdata = s.rdata := rfl

/-! ### complete -/

@[simp] theorem complete_irqEn (p : Pending) (s : State) : (complete p s).irqEn = s.irqEn := rfl
@[simp] theorem complete_done (p : Pending) (s : State) : (complete p s).done = true := rfl
@[simp] theorem complete_err (p : Pending) (s : State) : (complete p s).err = s.err := rfl
@[simp] theorem complete_errCode (p : Pending) (s : State) : (complete p s).errCode = s.errCode := rfl
@[simp] theorem complete_width (p : Pending) (s : State) : (complete p s).width = s.width := rfl
@[simp] theorem complete_height (p : Pending) (s : State) : (complete p s).height = s.height := rfl
@[simp] theorem complete_aw (p : Pending) (s : State) : (complete p s).aw = s.aw := rfl
@[simp] theorem complete_ah (p : Pending) (s : State) : (complete p s).ah = s.ah := rfl
@[simp] theorem complete_pixX (p : Pending) (s : State) : (complete p s).pixX = s.pixX := rfl
@[simp] theorem complete_pixY (p : Pending) (s : State) : (complete p s).pixY = s.pixY := rfl
@[simp] theorem complete_capacity (p : Pending) (s : State) : (complete p s).capacity = s.capacity := rfl
@[simp] theorem complete_pb (p : Pending) (s : State) : (complete p s).pb = (runPending p ⟨s.pb, s.sb⟩).pb := rfl
@[simp] theorem complete_sb (p : Pending) (s : State) : (complete p s).sb = s.sb.scramble := rfl
@[simp] theorem complete_pending (p : Pending) (s : State) : (complete p s).pending = none := rfl
@[simp] theorem complete_agenda (p : Pending) (s : State) : (complete p s).agenda = s.agenda := rfl
@[simp] theorem complete_rdata (p : Pending) (s : State) : (complete p s).rdata = s.rdata := rfl

/-! ### resetEvent -/

@[simp] theorem resetEvent_irqEn (s : State) : (resetEvent s).irqEn = false := rfl
@[simp] theorem resetEvent_done (s : State) : (resetEvent s).done = false := rfl
@[simp] theorem resetEvent_err (s : State) : (resetEvent s).err = false := rfl
@[simp] theorem resetEvent_errCode (s : State) : (resetEvent s).errCode = 0 := rfl
@[simp] theorem resetEvent_width (s : State) : (resetEvent s).width = 0 := rfl
@[simp] theorem resetEvent_height (s : State) : (resetEvent s).height = 0 := rfl
@[simp] theorem resetEvent_aw (s : State) : (resetEvent s).aw = 0 := rfl
@[simp] theorem resetEvent_ah (s : State) : (resetEvent s).ah = 0 := rfl
@[simp] theorem resetEvent_pixX (s : State) : (resetEvent s).pixX = 0 := rfl
@[simp] theorem resetEvent_pixY (s : State) : (resetEvent s).pixY = 0 := rfl
@[simp] theorem resetEvent_capacity (s : State) : (resetEvent s).capacity = s.capacity := rfl
@[simp] theorem resetEvent_pb (s : State) : (resetEvent s).pb = s.pb.scramble := rfl
@[simp] theorem resetEvent_sb (s : State) : (resetEvent s).sb = s.sb.scramble := rfl
@[simp] theorem resetEvent_pending (s : State) : (resetEvent s).pending = none := rfl
@[simp] theorem resetEvent_agenda (s : State) : (resetEvent s).agenda = s.agenda := rfl
@[simp] theorem resetEvent_rdata (s : State) : (resetEvent s).rdata = none := rfl

end Sys2Proof.Machine
end

