-- ==== Sys2Proof/Laws/Ops.lean ====
section
/-! SUPPORT. What each shared operation can do, said once; later proofs cite these. -/

namespace Sys2Proof.Machine

/-! ### STATUS -/

@[simp] theorem busy_eq_isSome (s : State) : s.busy = s.pending.isSome := rfl

theorem geomOk_iff (s : State) :
    s.geomOk = true ↔ s.width.toNat * s.height.toNat ≤ s.capacity.toNat := by
  simp [State.geomOk]

theorem coordOk_iff (s : State) :
    s.coordOk = true ↔ s.width.toNat * s.height.toNat ≤ s.capacity.toNat ∧
      s.pixX.toNat < s.width.toNat ∧ s.pixY.toNat < s.height.toNat := by
  simp [State.coordOk, geomOk_iff, and_assoc]

theorem activeTooLarge_iff (s : State) :
    activeTooLarge s = true ↔ s.width.toNat < s.aw.toNat ∨ s.height.toNat < s.ah.toNat := by
  simp [activeTooLarge]

/-! ### The busy lock and the bounds check -/

/-- A locked write while busy is rejected with BUSY (40_register_access.md R112). -/
theorem lockedWrite_busy {s : State} (write : State → State) (h : s.busy = true) :
    lockedWrite write s = raiseError .busy s := if_pos h

/-- A locked write while idle happens. -/
theorem lockedWrite_idle {s : State} (write : State → State) (h : s.pending = none) :
    lockedWrite write s = write s := by
  simp [lockedWrite, h]

/-- A locked write does one of two things. -/
theorem lockedWrite_cases (write : State → State) (s : State) :
    (s.busy = true ∧ lockedWrite write s = raiseError .busy s) ∨
      (s.pending = none ∧ lockedWrite write s = write s) := by
  cases h : s.pending with
  | none => exact .inr ⟨rfl, lockedWrite_idle write h⟩
  | some p =>
    have hb : s.busy = true := by simp [h]
    exact .inl ⟨hb, lockedWrite_busy write hb⟩

/-- A port write does one of two things (40_register_access.md R116). -/
theorem boundedWrite_cases (write : State → State) (s : State) :
    (s.coordOk = true ∧ boundedWrite write s = write s) ∨
      (s.coordOk = false ∧ boundedWrite write s = raiseError .bounds s) := by
  unfold boundedWrite
  cases s.coordOk <;> simp

/-- A port read answers 0 or the value. -/
theorem portRead_cases (value : State → Word) (s : State) :
    (s.busy = false ∧ s.coordOk = true ∧ portRead value s = value s) ∨
      ((s.busy = true ∨ s.coordOk = false) ∧ portRead value s = 0) := by
  unfold portRead
  cases s.busy <;> cases s.coordOk <;> simp

/-! ### Acceptance -/

/-- An offered level command (42_commands.md R170) is rejected with GEOMETRY, completes at once or
is accepted. -/
theorem offerLevel_cases (op : LevelOp) (n : BitVec 5) (s : State) :
    ((s.geomOk = false ∨ (op.usesActive = true ∧ activeTooLarge s = true)) ∧
        offerLevel op n s = raiseError .geometry s) ∨
      (s.geomOk = true ∧ op.usesActive = false ∧ n = 0#5 ∧ offerLevel op n s = completeNow s) ∨
      (s.geomOk = true ∧ (op.usesActive = true → activeTooLarge s = false) ∧
        (op.usesActive = false → n ≠ 0#5) ∧ offerLevel op n s = accept op n s) := by
  unfold offerLevel
  cases hg : s.geomOk
  · exact .inl ⟨.inl rfl, rfl⟩
  · cases ho : op.usesActive
    · by_cases hn : n = 0#5
      · exact .inr (.inl ⟨rfl, rfl, hn, by simp [hn]⟩)
      · exact .inr (.inr ⟨rfl, by simp, fun _ => hn, by
        simp only [Bool.not_true, Bool.false_and, Bool.false_eq_true, if_false, Bool.not_false,
          Bool.true_and, decide_eq_true_eq, if_neg hn]⟩)
    · cases ha : activeTooLarge s
      · exact .inr (.inr ⟨rfl, fun _ => rfl, by simp, rfl⟩)
      · exact .inl ⟨.inr ⟨rfl, rfl⟩, rfl⟩

/-- An offered word (42_commands.md R170) is rejected with ILLEGAL_CMD, is NOP, or is an offered
level command. -/
theorem offer_cases (v : Word) (s : State) :
    (illegalCommand v = true ∧ offer v s = raiseError .illegalCmd s) ∨
      (illegalCommand v = false ∧ levelOpOf (cmdOp v) = none ∧ offer v s = completeNow s) ∨
      (∃ op, illegalCommand v = false ∧ levelOpOf (cmdOp v) = some op ∧
        offer v s = offerLevel op (cmdLevels v) s) := by
  unfold offer
  cases hi : illegalCommand v
  · cases hl : levelOpOf (cmdOp v) <;> simp
  · simp

/-! ### The engine and the step -/

/-- The engine's turn does one of three things (42_commands.md R178). -/
theorem engineTurn_cases (s : State) :
    (s.pending = none ∧ engineTurn s = .next s) ∨
      (∃ p, s.pending = some p ∧ p.fits s.capacity = true ∧ engineTurn s = .next (complete p s)) ∨
      (∃ p, s.pending = some p ∧ p.fits s.capacity = false ∧
        engineTurn s = .fault .noSuchPixel) := by
  unfold engineTurn
  cases hp : s.pending with
  | none => simp
  | some p => cases hf : p.fits s.capacity <;> simp [hf]

/-- A step does one of four things, by the head of the agenda. -/
theorem step_cases (s : State) :
    (s.agenda = [] ∧ step s = engineTurn s) ∨
      (∃ t rest, s.agenda = .host t :: rest ∧
        step s = exec (portInstr t) { s with agenda := rest }) ∨
      (∃ rest, s.agenda = .engine :: rest ∧ step s = engineTurn { s with agenda := rest }) ∨
      (∃ rest, s.agenda = .rst :: rest ∧
        step s = .next (resetEvent { s with agenda := rest })) := by
  unfold step
  cases s.agenda with
  | nil => simp
  | cons e rest => cases e <;> simp

/-- The next step after `withFetchWord` runs the instruction of the word. -/
theorem step_withFetchWord (s : State) (nbits w : Nat) :
    step (s.withFetchWord nbits w) = exec (portInstr (tableTransfer nbits w)) s := rfl

/-! ### The levels -/

@[simp] theorem fwdLevel_epoch (w aw ah : Nat) (b : Buffers) :
    (fwdLevel w aw ah b).pb.epoch = b.pb.epoch := writeSamples_epoch _ _ _

@[simp] theorem invLevel_epoch (w aw ah : Nat) (b : Buffers) :
    (invLevel w aw ah b).pb.epoch = b.pb.epoch := writeSamples_epoch _ _ _

theorem fwdLevels_succ (w h n : Nat) (b : Buffers) :
    fwdLevels w h (n + 1) b = fwdLevel w (levelSide w n) (levelSide h n) (fwdLevels w h n b) := by
  simp [fwdLevels, List.range_succ, List.foldl_append]

theorem invLevels_succ (w h n : Nat) (b : Buffers) :
    invLevels w h (n + 1) b = invLevels w h n (invLevel w (levelSide w n) (levelSide h n) b) := by
  simp [invLevels, List.range_succ]

end Sys2Proof.Machine
end

