-- ==== Sys2Proof/Laws/Exec.lean ====
section
/-! SUPPORT. Everything an instruction can do, said once: `exec_effect` inverts `exec`, so that a
proof about every instruction is a case analysis of `Effect`. -/

namespace Sys2Proof.Machine

/-- The legality of a command word (30_encoding.md R74) as a proposition. -/
theorem illegalCommand_iff (w : Word) : illegalCommand w = true ↔
    4 < (cmdOp w).toNat ∨ cmdRsvd w ≠ 0#19 ∨ ((cmdOp w).toNat ≤ 2 ∧ cmdLevels w ≠ 0#5) := by
  have h : ((cmdOp w = 0#8 ∨ cmdOp w = 1#8) ∨ cmdOp w = 2#8) ↔ (cmdOp w).toNat ≤ 2 := by
    constructor
    · rintro ((h | h) | h) <;> rw [h] <;> decide
    · intro h
      have h' : (cmdOp w).toNat = 0 ∨ (cmdOp w).toNat = 1 ∨ (cmdOp w).toNat = 2 := by omega
      rcases h' with h | h | h
      · exact .inl (.inl (BitVec.eq_of_toNat_eq h))
      · exact .inl (.inr (BitVec.eq_of_toNat_eq h))
      · exact .inr (BitVec.eq_of_toNat_eq h)
  simp only [illegalCommand, Bool.or_eq_true, Bool.and_eq_true, decide_eq_true_eq, h, or_assoc]

/-- What a word offered to the acceptance logic can do (42_commands.md R170 to R172). -/
def OfferEffect (s t : State) : Prop :=
  t = raiseError .illegalCmd s ∨ t = raiseError .geometry s ∨ t = completeNow s ∨
    ∃ op n, t = accept op n s ∧ s.geomOk = true ∧
      (op.usesActive = true → activeTooLarge s = false) ∧ (n = 0#5 ↔ op.usesActive = true)

theorem offerLevel_effect (op : LevelOp) (n : BitVec 5) (s : State)
    (h : op.usesActive = true → n = 0#5) : OfferEffect s (offerLevel op n s) := by
  rcases offerLevel_cases op n s with ⟨_, e⟩ | ⟨_, _, _, e⟩ | ⟨hg, ha, hn, e⟩
  · exact .inr (.inl e)
  · exact .inr (.inr (.inl e))
  · refine .inr (.inr (.inr ⟨op, n, e, hg, ha, fun h0 => ?_, h⟩))
    cases hu : op.usesActive
    · exact absurd h0 (hn hu)
    · rfl

theorem offer_effect (v : Word) (s : State) : OfferEffect s (offer v s) := by
  rcases offer_cases v s with ⟨_, e⟩ | ⟨_, _, e⟩ | ⟨op, hi, ho, e⟩
  · exact .inl e
  · exact .inr (.inr (.inl e))
  · rw [e]
    refine offerLevel_effect _ _ _ fun hu => ?_
    have hl : ¬illegalCommand v = true := by rw [hi]; simp
    rw [illegalCommand_iff] at hl
    push Not at hl
    refine hl.2.2 ?_
    unfold levelOpOf at ho
    split at ho
    · next h => rw [h]; decide
    · split at ho
      · next h => rw [h]; decide
      · split at ho
        · cases ho; cases hu
        · split at ho
          · cases ho; cases hu
          · cases ho

/-- The reads of the register window. -/
def isRead (i : Instr) : Prop :=
  i ∈ [Instr.rdId, .rdCtrl, .rdStatus, .rdCmd, .rdWidth, .rdHeight, .rdAw, .rdAh, .rdPixX, .rdPixY,
    .rdPixData, .rdPixGray, .rdCapacity, .rdW13, .rdW14, .rdW15]

/-- The instructions that can put a command in progress. -/
def offersCommand (i : Instr) : Prop :=
  i = .fwd1 ∨ i = .inv1 ∨ (∃ n, i = .fwdn n ∨ i = .invn n) ∨ ∃ d, i = .wrCmd d

/-- The writes to the configuration registers and through the pixel port: the locked words less CMD
(40_register_access.md R112). -/
def isOperandWrite (i : Instr) : Prop :=
  ∃ d, i ∈ [Instr.wrWidth d, .wrHeight d, .wrAw d, .wrAh d, .wrPixX d, .wrPixY d, .wrPixData d,
    .wrPixGray d]

/-- The state after an instruction, by what it did. -/
inductive Effect (s : State) : Instr → State → Prop
  | read (i w) : isRead i → Effect s i (answer w s)
  | same (i) : Effect s i s
  | rejected (i e) : i = .nop ∨ offersCommand i ∨ isOperandWrite i → Effect s i (raiseError e s)
  | ctrl (d) : Effect s (.wrCtrl d) { s with irqEn := d.getLsbD 0 }
  | status (d) : Effect s (.wrStatus d) (acknowledge d s)
  | completed (i) : s.pending = none → i = .nop ∨ offersCommand i → Effect s i (completeNow s)
  | accepted (i op n) : s.pending = none → s.geomOk = true →
      (op.usesActive = true → activeTooLarge s = false) → (n = 0#5 ↔ op.usesActive = true) →
      offersCommand i → Effect s i (accept op n s)
  | width (d) : s.pending = none → Effect s (.wrWidth d) { s with width := d }
  | height (d) : s.pending = none → Effect s (.wrHeight d) { s with height := d }
  | aw (d) : s.pending = none → Effect s (.wrAw d) { s with aw := d }
  | ah (d) : s.pending = none → Effect s (.wrAh d) { s with ah := d }
  | pixX (d) : s.pending = none → Effect s (.wrPixX d) { s with pixX := d }
  | pixY (d) : s.pending = none → Effect s (.wrPixY d) { s with pixY := d }
  | pixel (i r g b) : s.pending = none → s.coordOk = true →
      (∃ d, i = .wrPixData d ∨ i = .wrPixGray d) → Effect s i (writePixel r g b s)

theorem lockedWrite_effect {s : State} {i : Instr} {write : State → State}
    (hi : i = .nop ∨ offersCommand i ∨ isOperandWrite i)
    (h : s.pending = none → Effect s i (write s)) : Effect s i (lockedWrite write s) := by
  rcases lockedWrite_cases write s with ⟨_, e⟩ | ⟨h1, e⟩ <;> rw [e]
  · exact .rejected _ _ hi
  · exact h h1

theorem lockedOffer_effect {s : State} {i : Instr} {write : State → State}
    (h : OfferEffect s (write s)) (hi : offersCommand i) : Effect s i (lockedWrite write s) := by
  refine lockedWrite_effect (.inr (.inl hi)) fun hp => ?_
  rcases h with e | e | e | ⟨op, n, e, h1, h2, h3⟩ <;> rw [e]
  · exact .rejected _ _ (.inr (.inl hi))
  · exact .rejected _ _ (.inr (.inl hi))
  · exact .completed _ hp (.inr hi)
  · exact .accepted _ _ _ hp h1 h2 h3 hi

theorem portWrite_effect {s : State} {i : Instr} {r g b : Byte}
    (hi : ∃ d, i = .wrPixData d ∨ i = .wrPixGray d) :
    Effect s i (lockedWrite (boundedWrite (writePixel r g b)) s) := by
  have hw : i = .nop ∨ offersCommand i ∨ isOperandWrite i := by
    obtain ⟨d, rfl | rfl⟩ := hi <;> exact .inr (.inr ⟨d, by simp⟩)
  refine lockedWrite_effect hw fun hp => ?_
  rcases boundedWrite_cases (writePixel r g b) s with ⟨h, e⟩ | ⟨_, e⟩ <;> rw [e]
  · exact .pixel _ _ _ _ hp h hi
  · exact .rejected _ _ hw

/-- The inversion of `exec`: the next state is one of the effects of the instruction. -/
theorem exec_effect {i : Instr} {s t : State} (h : exec i s = .next t) : Effect s i t := by
  cases i <;> cases h
  case nop => exact lockedWrite_effect (.inl rfl) fun h => .completed _ h (.inl rfl)
  case fwd1 => exact lockedOffer_effect (offerLevel_effect _ _ _ fun _ => rfl) (.inl rfl)
  case inv1 => exact lockedOffer_effect (offerLevel_effect _ _ _ fun _ => rfl) (.inr (.inl rfl))
  case fwdn n =>
    exact lockedOffer_effect (offerLevel_effect _ _ _ fun h => by cases h)
      (.inr (.inr (.inl ⟨n, .inl rfl⟩)))
  case invn n =>
    exact lockedOffer_effect (offerLevel_effect _ _ _ fun h => by cases h)
      (.inr (.inr (.inl ⟨n, .inr rfl⟩)))
  case wrCmd d => exact lockedOffer_effect (offer_effect _ _) (.inr (.inr (.inr ⟨d, rfl⟩)))
  case wrCtrl => exact .ctrl _
  case wrStatus => exact .status _
  case wrWidth d => exact lockedWrite_effect (.inr (.inr ⟨d, by simp⟩)) fun h => .width _ h
  case wrHeight d => exact lockedWrite_effect (.inr (.inr ⟨d, by simp⟩)) fun h => .height _ h
  case wrAw d => exact lockedWrite_effect (.inr (.inr ⟨d, by simp⟩)) fun h => .aw _ h
  case wrAh d => exact lockedWrite_effect (.inr (.inr ⟨d, by simp⟩)) fun h => .ah _ h
  case wrPixX d => exact lockedWrite_effect (.inr (.inr ⟨d, by simp⟩)) fun h => .pixX _ h
  case wrPixY d => exact lockedWrite_effect (.inr (.inr ⟨d, by simp⟩)) fun h => .pixY _ h
  case wrPixData d => exact portWrite_effect ⟨d, .inl rfl⟩
  case wrPixGray d => exact portWrite_effect ⟨d, .inr rfl⟩
  all_goals first | exact .read _ _ (by simp [isRead]) | exact .same _

end Sys2Proof.Machine
end

