-- ==== Sys2Proof/Laws/Haar.lean ====
section
/-! SUPPORT. The four passes of the level datapath (41_haar_level.md R142, R143, R147, R148): which
writes each makes, and that within a pass no two writes of one byte differ (R151), so that
`written_writeSamples_of_mem` gives the byte a pass leaves. -/

namespace Sys2Proof.Machine

theorem mem_channels (c : Channel) : c ∈ channels := by revert c; decide

/-! ### The writes of a pass -/

theorem mem_fwdRowWrites {w aw ah : Nat} {m : Memory} {q : SampleWrite} :
    q ∈ fwdRowWrites w aw ah m ↔ ∃ y < ah, ∃ c, ∃ x < aw / 2,
      q = ⟨x, y, c, fwdApprox (pixRead w m (2 * x) y c) (pixRead w m (2 * x + 1) y c)⟩ ∨
      q = ⟨x + aw / 2, y, c,
        fwdDetail (pixRead w m (2 * x) y c) (pixRead w m (2 * x + 1) y c)⟩ := by
  simp only [fwdRowWrites, List.mem_flatMap, List.mem_range, List.mem_cons, List.not_mem_nil,
    or_false, mem_channels, true_and]

theorem mem_fwdColWrites {w aw ah : Nat} {m : Memory} {q : SampleWrite} :
    q ∈ fwdColWrites w aw ah m ↔ ∃ x < 2 * (aw / 2), ∃ c, ∃ y < ah / 2,
      q = ⟨x, y, c, fwdApprox (scrRead w m x (2 * y) c) (scrRead w m x (2 * y + 1) c)⟩ ∨
      q = ⟨x, y + ah / 2, c,
        fwdDetail (scrRead w m x (2 * y) c) (scrRead w m x (2 * y + 1) c)⟩ := by
  simp only [fwdColWrites, List.mem_flatMap, List.mem_range, List.mem_cons, List.not_mem_nil,
    or_false, mem_channels, true_and]

theorem mem_invRowWrites {w aw ah : Nat} {m : Memory} {q : SampleWrite} :
    q ∈ invRowWrites w aw ah m ↔ ∃ y < ah, ∃ c, ∃ x < aw / 2,
      q = ⟨2 * x, y, c, invEven (pixRead w m x y c) (pixRead w m (x + aw / 2) y c)⟩ ∨
      q = ⟨2 * x + 1, y, c, invOdd (pixRead w m x y c) (pixRead w m (x + aw / 2) y c)⟩ := by
  simp only [invRowWrites, List.mem_flatMap, List.mem_range, List.mem_cons, List.not_mem_nil,
    or_false, mem_channels, true_and]

theorem mem_invColWrites {w aw ah : Nat} {m : Memory} {q : SampleWrite} :
    q ∈ invColWrites w aw ah m ↔ ∃ x < 2 * (aw / 2), ∃ c, ∃ y < ah / 2,
      q = ⟨x, 2 * y, c, invEven (scrRead w m x y c) (scrRead w m x (y + ah / 2) c)⟩ ∨
      q = ⟨x, 2 * y + 1, c, invOdd (scrRead w m x y c) (scrRead w m x (y + ah / 2) c)⟩ := by
  simp only [invColWrites, List.mem_flatMap, List.mem_range, List.mem_cons, List.not_mem_nil,
    or_false, mem_channels, true_and]

/-! ### No two writes of a pass to one byte differ -/

theorem fwdRowWrites_value {w aw ah : Nat} {m : Memory} (hw : aw ≤ w) {q r : SampleWrite}
    (hq : q ∈ fwdRowWrites w aw ah m) (hr : r ∈ fwdRowWrites w aw ah m)
    (h : sampleAddr w r.x r.y r.c = sampleAddr w q.x q.y q.c) : r.v = q.v := by
  obtain ⟨y, hy, c, x, hx, rfl | rfl⟩ := mem_fwdRowWrites.1 hq <;>
  obtain ⟨y', hy', c', x', hx', rfl | rfl⟩ := mem_fwdRowWrites.1 hr <;>
  obtain ⟨e1, e2, e3⟩ := sampleAddr_inj (by simp only; omega) (by simp only; omega) h <;>
  simp only at e1 e2 e3 <;> subst e2 <;> subst e3
  · subst e1; rfl
  · omega
  · omega
  · have e : x' = x := by omega
    subst e; rfl

theorem fwdColWrites_value {w aw ah : Nat} {m : Memory} (hw : aw ≤ w) {q r : SampleWrite}
    (hq : q ∈ fwdColWrites w aw ah m) (hr : r ∈ fwdColWrites w aw ah m)
    (h : sampleAddr w r.x r.y r.c = sampleAddr w q.x q.y q.c) : r.v = q.v := by
  obtain ⟨x, hx, c, y, hy, rfl | rfl⟩ := mem_fwdColWrites.1 hq <;>
  obtain ⟨x', hx', c', y', hy', rfl | rfl⟩ := mem_fwdColWrites.1 hr <;>
  obtain ⟨e1, e2, e3⟩ := sampleAddr_inj (by simp only; omega) (by simp only; omega) h <;>
  simp only at e1 e2 e3 <;> subst e1 <;> subst e3
  · subst e2; rfl
  · omega
  · omega
  · have e : y' = y := by omega
    subst e; rfl

theorem invRowWrites_value {w aw ah : Nat} {m : Memory} (hw : aw ≤ w) {q r : SampleWrite}
    (hq : q ∈ invRowWrites w aw ah m) (hr : r ∈ invRowWrites w aw ah m)
    (h : sampleAddr w r.x r.y r.c = sampleAddr w q.x q.y q.c) : r.v = q.v := by
  obtain ⟨y, hy, c, x, hx, rfl | rfl⟩ := mem_invRowWrites.1 hq <;>
  obtain ⟨y', hy', c', x', hx', rfl | rfl⟩ := mem_invRowWrites.1 hr <;>
  obtain ⟨e1, e2, e3⟩ := sampleAddr_inj (by simp only; omega) (by simp only; omega) h <;>
  simp only at e1 e2 e3 <;> subst e2 <;> subst e3
  · have e : x' = x := by omega
    subst e; rfl
  · omega
  · omega
  · have e : x' = x := by omega
    subst e; rfl

theorem invColWrites_value {w aw ah : Nat} {m : Memory} (hw : aw ≤ w) {q r : SampleWrite}
    (hq : q ∈ invColWrites w aw ah m) (hr : r ∈ invColWrites w aw ah m)
    (h : sampleAddr w r.x r.y r.c = sampleAddr w q.x q.y q.c) : r.v = q.v := by
  obtain ⟨x, hx, c, y, hy, rfl | rfl⟩ := mem_invColWrites.1 hq <;>
  obtain ⟨x', hx', c', y', hy', rfl | rfl⟩ := mem_invColWrites.1 hr <;>
  obtain ⟨e1, e2, e3⟩ := sampleAddr_inj (by simp only; omega) (by simp only; omega) h <;>
  simp only at e1 e2 e3 <;> subst e1 <;> subst e3
  · have e : y' = y := by omega
    subst e; rfl
  · omega
  · omega
  · have e : y' = y := by omega
    subst e; rfl

/-! ### The truncating division -/

/-- tdiv2 (00_scope.md R9) is Lean's division that rounds toward zero. -/
theorem tdiv2_eq_tdiv (v : Int) : tdiv2 v = v.tdiv 2 := by
  unfold tdiv2
  split
  · next h => exact (Int.tdiv_eq_ediv_of_nonneg h).symm
  · next h =>
    have hv : v = -(-v) := by omega
    conv => rhs; rw [hv, Int.neg_tdiv, Int.tdiv_eq_ediv_of_nonneg (by omega)]

end Sys2Proof.Machine
end

