-- ==== Sys2Proof/Laws/PerInstr.lean ====
section
/-! SUPPORT. Per-instruction facts about the syntax. The family TableRow: what the encoder writes for
an instruction lies in that instruction's row of the opcode table (its match under its mask). -/

namespace Sys2Proof.Laws

/-- A row of the opcode table: format CMD (32 bits) or BUS (37 bits), mask and match. -/
inductive Row where
  | cmd (mask val : Word)
  | bus (mask val : BitVec 37)
deriving DecidableEq, Repr

/-- The transfer is of the row's format and equals its match under its mask. -/
def Row.holds : Row → Transfer → Bool
  | .cmd mask val, .cmd w => decide (w &&& mask = val)
  | .bus mask val, .bus v => decide (v &&& mask = val)
  | _, _ => false

/-- The opcode table's row of each instruction. -/
def rowOf : Instr → Row
  | .nop => .cmd 0xFFFFFFFF 0x00000000
  | .fwd1 => .cmd 0xFFFFFFFF 0x00000001
  | .inv1 => .cmd 0xFFFFFFFF 0x00000002
  | .fwdn _ => .cmd 0xFFFFE0FF 0x00000003
  | .invn _ => .cmd 0xFFFFE0FF 0x00000004
  | .rdId => .bus 0x1F00000000 0x0000000000
  | .rdCtrl => .bus 0x1F00000000 0x0100000000
  | .rdStatus => .bus 0x1F00000000 0x0200000000
  | .rdCmd => .bus 0x1F00000000 0x0300000000
  | .rdWidth => .bus 0x1F00000000 0x0400000000
  | .rdHeight => .bus 0x1F00000000 0x0500000000
  | .rdAw => .bus 0x1F00000000 0x0600000000
  | .rdAh => .bus 0x1F00000000 0x0700000000
  | .rdPixX => .bus 0x1F00000000 0x0800000000
  | .rdPixY => .bus 0x1F00000000 0x0900000000
  | .rdPixData => .bus 0x1F00000000 0x0A00000000
  | .rdPixGray => .bus 0x1F00000000 0x0B00000000
  | .rdCapacity => .bus 0x1F00000000 0x0C00000000
  | .rdW13 => .bus 0x1F00000000 0x0D00000000
  | .rdW14 => .bus 0x1F00000000 0x0E00000000
  | .rdW15 => .bus 0x1F00000000 0x0F00000000
  | .wrId _ => .bus 0x1F00000000 0x1000000000
  | .wrCtrl _ => .bus 0x1F00000000 0x1100000000
  | .wrStatus _ => .bus 0x1F00000000 0x1200000000
  | .wrCmd _ => .bus 0x1F00000000 0x1300000000
  | .wrWidth _ => .bus 0x1F00000000 0x1400000000
  | .wrHeight _ => .bus 0x1F00000000 0x1500000000
  | .wrAw _ => .bus 0x1F00000000 0x1600000000
  | .wrAh _ => .bus 0x1F00000000 0x1700000000
  | .wrPixX _ => .bus 0x1F00000000 0x1800000000
  | .wrPixY _ => .bus 0x1F00000000 0x1900000000
  | .wrPixData _ => .bus 0x1F00000000 0x1A00000000
  | .wrPixGray _ => .bus 0x1F00000000 0x1B00000000
  | .wrCapacity _ => .bus 0x1F00000000 0x1C00000000
  | .wrW13 _ => .bus 0x1F00000000 0x1D00000000
  | .wrW14 _ => .bus 0x1F00000000 0x1E00000000
  | .wrW15 _ => .bus 0x1F00000000 0x1F00000000

/-- The encoder writes each instruction within its row. -/
def TableRow.Statement (i : Instr) : Prop := (rowOf i).holds (encode i) = true

/-- The fields of a BUS value under the table's BUS mask. -/
theorem busValue_masked (we : Bool) (a : BitVec 4) (d : Word) :
    busValue we a d &&& 0x1F00000000#37 = busValue we a 0 := by
  apply BitVec.eq_of_getLsbD_eq
  intro i hi
  rw [BitVec.getLsbD_and]
  simp only [busValue, BitVec.getLsbD_append]
  by_cases h : i < 32
  · have : (0x1F00000000#37).getLsbD i = false := by
      have : ∀ j : Fin 32, (0x1F00000000#37).getLsbD j.val = false := by decide
      exact this ⟨i, h⟩
    simp [h, this]
  · have : (0x1F00000000#37).getLsbD i = true := by
      have : ∀ j : Fin 5, (0x1F00000000#37).getLsbD (32 + j.val) = true := by decide
      have := this ⟨i - 32, by omega⟩
      rwa [show 32 + (i - 32) = i by omega] at this
    simp [h, this]

theorem TableRow.nop : TableRow.Statement .nop := rfl
theorem TableRow.fwd1 : TableRow.Statement .fwd1 := rfl
theorem TableRow.inv1 : TableRow.Statement .inv1 := rfl
theorem TableRow.fwdn (levels : BitVec 5) : TableRow.Statement (.fwdn levels) := by
  unfold TableRow.Statement; revert levels; decide
theorem TableRow.invn (levels : BitVec 5) : TableRow.Statement (.invn levels) := by
  unfold TableRow.Statement; revert levels; decide
theorem TableRow.rdId : TableRow.Statement .rdId := rfl
theorem TableRow.rdCtrl : TableRow.Statement .rdCtrl := rfl
theorem TableRow.rdStatus : TableRow.Statement .rdStatus := rfl
theorem TableRow.rdCmd : TableRow.Statement .rdCmd := rfl
theorem TableRow.rdWidth : TableRow.Statement .rdWidth := rfl
theorem TableRow.rdHeight : TableRow.Statement .rdHeight := rfl
theorem TableRow.rdAw : TableRow.Statement .rdAw := rfl
theorem TableRow.rdAh : TableRow.Statement .rdAh := rfl
theorem TableRow.rdPixX : TableRow.Statement .rdPixX := rfl
theorem TableRow.rdPixY : TableRow.Statement .rdPixY := rfl
theorem TableRow.rdPixData : TableRow.Statement .rdPixData := rfl
theorem TableRow.rdPixGray : TableRow.Statement .rdPixGray := rfl
theorem TableRow.rdCapacity : TableRow.Statement .rdCapacity := rfl
theorem TableRow.rdW13 : TableRow.Statement .rdW13 := rfl
theorem TableRow.rdW14 : TableRow.Statement .rdW14 := rfl
theorem TableRow.rdW15 : TableRow.Statement .rdW15 := rfl
theorem TableRow.wrId (d : Word) : TableRow.Statement (.wrId d) :=
  decide_eq_true (busValue_masked true _ d)
theorem TableRow.wrCtrl (d : Word) : TableRow.Statement (.wrCtrl d) :=
  decide_eq_true (busValue_masked true _ d)
theorem TableRow.wrStatus (d : Word) : TableRow.Statement (.wrStatus d) :=
  decide_eq_true (busValue_masked true _ d)
theorem TableRow.wrCmd (d : Word) : TableRow.Statement (.wrCmd d) :=
  decide_eq_true (busValue_masked true _ d)
theorem TableRow.wrWidth (d : Word) : TableRow.Statement (.wrWidth d) :=
  decide_eq_true (busValue_masked true _ d)
theorem TableRow.wrHeight (d : Word) : TableRow.Statement (.wrHeight d) :=
  decide_eq_true (busValue_masked true _ d)
theorem TableRow.wrAw (d : Word) : TableRow.Statement (.wrAw d) :=
  decide_eq_true (busValue_masked true _ d)
theorem TableRow.wrAh (d : Word) : TableRow.Statement (.wrAh d) :=
  decide_eq_true (busValue_masked true _ d)
theorem TableRow.wrPixX (d : Word) : TableRow.Statement (.wrPixX d) :=
  decide_eq_true (busValue_masked true _ d)
theorem TableRow.wrPixY (d : Word) : TableRow.Statement (.wrPixY d) :=
  decide_eq_true (busValue_masked true _ d)
theorem TableRow.wrPixData (d : Word) : TableRow.Statement (.wrPixData d) :=
  decide_eq_true (busValue_masked true _ d)
theorem TableRow.wrPixGray (d : Word) : TableRow.Statement (.wrPixGray d) :=
  decide_eq_true (busValue_masked true _ d)
theorem TableRow.wrCapacity (d : Word) : TableRow.Statement (.wrCapacity d) :=
  decide_eq_true (busValue_masked true _ d)
theorem TableRow.wrW13 (d : Word) : TableRow.Statement (.wrW13 d) :=
  decide_eq_true (busValue_masked true _ d)
theorem TableRow.wrW14 (d : Word) : TableRow.Statement (.wrW14 d) :=
  decide_eq_true (busValue_masked true _ d)
theorem TableRow.wrW15 (d : Word) : TableRow.Statement (.wrW15 d) :=
  decide_eq_true (busValue_masked true _ d)
end Sys2Proof.Laws
end

