-- ==== Sys2Proof/Tests/Slice0.lean ====
section
/-! SUPPORT. Tests: ill-formed lines refused, words written out from the encodings, one step of each
instruction against 95_test_vectors.md or a rule's own example, and for each statement with hypotheses
a state that meets them (`test_witness_<statement>`). -/

namespace Sys2Proof.Tests

open Sys2Proof.Machine Sys2Proof.Claims

/-! ### Helpers -/

/-- A buffer that lists a gray image, pixel index 0 first. -/
def grayCells : Nat → List Byte → List Host.Cell
  | _, [] => []
  | i, v :: vs => (3 * i, v) :: (3 * i + 1, v) :: (3 * i + 2, v) :: grayCells (i + 1) vs

def gray (vs : List Byte) : Memory := { cells := grayCells 0 vs, epoch := 0 }

def blank : Memory := { cells := [], epoch := 0 }

/-- Channel `c` of the first `n` pixels. -/
def plane (m : Memory) (c : Channel) (n : Nat) : List Nat :=
  (List.range n).map fun i => (pbByte m (3 * i + c.val)).toNat

/-- The word a step read. -/
def readWord (o : Host.Outcome State Fault Refusal) : Option Word :=
  match o with
  | .next t => t.rdata
  | _ => none

/-- STATUS after a step. -/
def status (o : Host.Outcome State Fault Refusal) : Option Word :=
  match o with
  | .next t => some (statusWord t)
  | _ => none

/-- A field of the state after a step. -/
def after {α : Type} (f : State → α) (o : Host.Outcome State Fault Refusal) : Option α :=
  match o with
  | .next t => some (f t)
  | _ => none

/-- Reset on a build with PIX_CAPACITY = 16. -/
def fresh : State := { State.reset with capacity := 16 }

/-- A loaded gray 2x2 image, the region all of it, the port at (1, 1): the corner in bounds. -/
def idle : State :=
  { fresh with width := 2, height := 2, aw := 2, ah := 2, pixX := 1, pixY := 1
               pb := gray [10, 20, 30, 40] }

/-- The record of a command over `idle`. -/
def record (op : LevelOp) (n : BitVec 5) : Pending :=
  { op := op, levels := n, w := 2, h := 2, aw := 2, ah := 2 }

/-- `idle` with FWD1 in progress. -/
def working : State := { idle with pending := some (record .fwd1 0) }

/-- WIDTH * HEIGHT = 20 above PIX_CAPACITY = 16. -/
def misfit : State := { fresh with width := 5, height := 4 }

/-! ### WellFormed: one ill-formed line for each check -/

theorem test_illformed_fwdn_count : (Line.cmd (.fwdn (some 32))).wellFormed = false := by decide
theorem test_illformed_fwdn_absent : (Line.cmd (.fwdn none)).wellFormed = false := by decide
theorem test_illformed_invn_count : (Line.wrText .cmd (.invn (some 32))).wellFormed = false := by decide
theorem test_illformed_invn_absent : (Line.cmd (.invn none)).wellFormed = false := by decide
theorem test_illformed_value : (Line.wr .width 4294967296).wellFormed = false := by decide
theorem test_illformed_wait : (Line.wait 0).wellFormed = false := by decide
theorem test_illformed_geom :
    (Line.geom 4294967296 0).wellFormed = false ∧ (Line.geom 0 4294967296).wellFormed = false := by decide
theorem test_illformed_active :
    (Line.active 4294967296 0).wellFormed = false ∧ (Line.active 0 4294967296).wellFormed = false := by decide
theorem test_illformed_at :
    (Line.atPix 4294967296 0).wellFormed = false ∧ (Line.atPix 0 4294967296).wellFormed = false := by decide
theorem test_illformed_setpix :
    (Line.setpix 0 0 256 0 0).wellFormed = false ∧ (Line.setpix 0 0 0 256 0).wellFormed = false ∧
    (Line.setpix 0 0 0 0 256).wellFormed = false := by decide
theorem test_illformed_setpix_at :
    (Line.setpix 4294967296 0 0 0 0).wellFormed = false ∧
    (Line.setpix 0 4294967296 0 0 0).wellFormed = false := by decide
theorem test_illformed_setgray :
    (Line.setgray 0 0 256).wellFormed = false ∧ (Line.setgray 4294967296 0 0).wellFormed = false ∧
    (Line.setgray 0 4294967296 0).wellFormed = false := by decide
theorem test_illformed_getpix :
    (Line.getpix 4294967296 0).wellFormed = false ∧ (Line.getpix 0 4294967296).wellFormed = false := by decide
theorem test_illformed_getgray :
    (Line.getgray 4294967296 0).wellFormed = false ∧ (Line.getgray 0 4294967296).wellFormed = false := by decide
theorem test_wellformed_bounds :
    (Line.cmd (.fwdn (some 31))).wellFormed = true ∧ (Line.cmd (.invn (some 0))).wellFormed = true ∧
    (Line.wr .height 4294967295).wellFormed = true ∧ (Line.setpix 0 0 255 255 255).wellFormed = true := by
  decide

/-! ### Decoding: words written out from 30_encoding.md R70, R71, R75, R76 -/

theorem test_decode_commands :
    decode (.cmd 0b0000000000000000000_00000_00000000#32) = .ok .nop ∧
    decode (.cmd 0b0000000000000000000_00000_00000001#32) = .ok .fwd1 ∧
    decode (.cmd 0b0000000000000000000_00000_00000010#32) = .ok .inv1 ∧
    decode (.cmd 0b0000000000000000000_11111_00000011#32) = .ok (.fwdn 31) ∧
    decode (.cmd 0b0000000000000000000_00010_00000100#32) = .ok (.invn 2) := ⟨rfl, rfl, rfl, rfl, rfl⟩

/-- V-ENC: the illegal words. -/
theorem test_decode_illegal :
    decode (.cmd 0x00000100) = .error .levelsNotZero ∧ decode (.cmd 0x00000101) = .error .levelsNotZero ∧
    decode (.cmd 0x00000202) = .error .levelsNotZero ∧ decode (.cmd 0x00000005) = .error .reservedOpcode ∧
    decode (.cmd 0x000000FF) = .error .reservedOpcode ∧ decode (.cmd 0x00002003) = .error .reservedBits ∧
    decode (.cmd 0x80000004) = .error .reservedBits := ⟨rfl, rfl, rfl, rfl, rfl, rfl, rfl⟩

theorem test_decode_reads :
    decode (.bus 0x0000000000) = .ok .rdId ∧ decode (.bus 0x0100000000) = .ok .rdCtrl ∧
    decode (.bus 0x0200000000) = .ok .rdStatus ∧ decode (.bus 0x0300000000) = .ok .rdCmd ∧
    decode (.bus 0x0400000000) = .ok .rdWidth ∧ decode (.bus 0x0500000000) = .ok .rdHeight ∧
    decode (.bus 0x0600000000) = .ok .rdAw ∧ decode (.bus 0x0700000000) = .ok .rdAh ∧
    decode (.bus 0x0800000000) = .ok .rdPixX ∧ decode (.bus 0x0900000000) = .ok .rdPixY ∧
    decode (.bus 0x0A00000000) = .ok .rdPixData ∧ decode (.bus 0x0B00000000) = .ok .rdPixGray ∧
    decode (.bus 0x0C00000000) = .ok .rdCapacity ∧ decode (.bus 0x0D00000000) = .ok .rdW13 ∧
    decode (.bus 0x0E00000000) = .ok .rdW14 ∧ decode (.bus 0x0FFFFFFFFF) = .ok .rdW15 :=
  ⟨rfl, rfl, rfl, rfl, rfl, rfl, rfl, rfl, rfl, rfl, rfl, rfl, rfl, rfl, rfl, rfl⟩

theorem test_decode_writes :
    decode (.bus 0x1000000001) = .ok (.wrId 1) ∧ decode (.bus 0x1180000001) = .ok (.wrCtrl 0x80000001) ∧
    decode (.bus 0x1200000006) = .ok (.wrStatus 6) ∧ decode (.bus 0x1300000203) = .ok (.wrCmd 0x203) ∧
    decode (.bus 0x1400000004) = .ok (.wrWidth 4) ∧ decode (.bus 0x15FFFFFFFF) = .ok (.wrHeight 0xFFFFFFFF) ∧
    decode (.bus 0x1600000002) = .ok (.wrAw 2) ∧ decode (.bus 0x1700000003) = .ok (.wrAh 3) ∧
    decode (.bus 0x1800000003) = .ok (.wrPixX 3) ∧ decode (.bus 0x1900000005) = .ok (.wrPixY 5) ∧
    decode (.bus 0x1A001E140A) = .ok (.wrPixData 0x001E140A) ∧
    decode (.bus 0x1B000000FF) = .ok (.wrPixGray 0xFF) ∧
    decode (.bus 0x1C00000007) = .ok (.wrCapacity 7) ∧ decode (.bus 0x1D00000008) = .ok (.wrW13 8) ∧
    decode (.bus 0x1E00000009) = .ok (.wrW14 9) ∧ decode (.bus 0x1F12345678) = .ok (.wrW15 0x12345678) :=
  ⟨rfl, rfl, rfl, rfl, rfl, rfl, rfl, rfl, rfl, rfl, rfl, rfl, rfl, rfl, rfl, rfl⟩

theorem test_table_words :
    decodeTableWord 32 0x00000203 = some (.fwdn 2) ∧ decodeTableWord 32 0x00000005 = none ∧
    decodeTableWord 40 0x1A001E140A = some (.wrPixData 0x001E140A) ∧
    decodeTableWord 37 0x0200000000 = some .rdStatus ∧ decodeTableWord 40 0x2000000000 = none := by decide

/-- The example of R79 and R80. -/
theorem test_assemble_setpix :
    assembleLine (.setpix 1 0 10 20 30) = some [.wrPixX 1, .wrPixY 0, .wrPixData 0x001E140A] := by decide

theorem test_assemble_lines :
    assembleLine (.geom 2 3) = some [.wrWidth 2, .wrHeight 3] ∧
    assembleLine (.active 4 5) = some [.wrAw 4, .wrAh 5] ∧
    assembleLine (.atPix 6 7) = some [.wrPixX 6, .wrPixY 7] ∧
    assembleLine (.setgray 1 2 255) = some [.wrPixX 1, .wrPixY 2, .wrPixGray 255] ∧
    assembleLine (.getpix 1 2) = some [.wrPixX 1, .wrPixY 2, .rdPixData] ∧
    assembleLine (.getgray 1 2) = some [.wrPixX 1, .wrPixY 2, .rdPixGray] ∧
    assembleLine .clrst = some [.wrStatus 6] ∧
    assembleLine (.wait 2) = some [.rdStatus, .rdStatus] ∧
    assembleLine (.wr .w15 9) = some [.wrW15 9] ∧ assembleLine (.rd .aw) = some [.rdAw] ∧
    assembleLine (.wrText .cmd (.fwdn (some 2))) = some [.wrCmd 0x203] := by decide

/-! ### The level datapath -/

/-- V-PF, the rows that tell truncation from floor, and V-PI, the rows where a clamp bites. -/
theorem test_pair_functions :
    fwdApprox 0 255 = 127 ∧ fwdDetail 0 255 = 1 ∧ fwdDetail 255 0 = 255 ∧ fwdDetail 0 1 = 128 ∧
    fwdDetail 0 3 = 127 ∧ fwdDetail 254 255 = 128 ∧
    invEven 255 255 = 255 ∧ invEven 0 0 = 0 ∧ invOdd 0 255 = 0 ∧ invOdd 255 0 = 255 ∧
    invEven 127 1 = 0 ∧ invOdd 127 1 = 254 := by decide

/-- V-F1-1. -/
theorem test_forward_level :
    plane (fwdLevel 2 2 2 ⟨gray [10, 20, 30, 40], blank⟩).pb 0 4 = [25, 123, 118, 128] := by decide

/-- V-I1-8, which the vertical-first order would fail. -/
theorem test_inverse_level :
    plane (invLevel 2 2 2 ⟨gray [200, 250, 10, 128], blank⟩).pb 2 4 = [137, 0, 255, 196] := by decide

/-- V-ODD-2. -/
theorem test_forward_odd_region :
    plane (fwdLevel 3 3 3 ⟨gray [9, 3, 7, 1, 5, 2, 8, 6, 4], blank⟩).pb 1 9 =
      [4, 128, 7, 129, 130, 2, 8, 6, 4] := by decide

/-! ### One step of each instruction -/

theorem test_rdId : readWord (exec .rdId fresh) = some 0x48574531 := by decide
theorem test_wrId : exec (.wrId 0x12345678) fresh = .next fresh := rfl
theorem test_rdCtrl : readWord (exec .rdCtrl { fresh with irqEn := true }) = some 1 := by decide
theorem test_wrCtrl : after State.irqEn (exec (.wrCtrl 0xFFFFFFFE) working) = some false := by decide
/-- V-REG-5, its STATUS while DONE and IRQ are 1. -/
theorem test_rdStatus :
    readWord (exec .rdStatus { fresh with irqEn := true, done := true }) = some 0x602 := by decide
theorem test_rdStatus_busy : readWord (exec .rdStatus working) = some 0x301 := by decide
theorem test_wrStatus :
    status (exec (.wrStatus 4) { fresh with done := true, err := true, errCode := 1 }) = some 0x202 := by decide
theorem test_wrStatus_done :
    status (exec (.wrStatus 2) { fresh with done := true, err := true, errCode := 1 }) = some 0x214 := by decide
theorem test_rdCmd : readWord (exec .rdCmd working) = some 0 := by decide
/-- V-REG-6: the second error is not recorded. -/
theorem test_wrCmd :
    status (exec (.wrCmd 0x101) { fresh with err := true, errCode := 2 }) = some 0x224 ∧
    status (exec (.wrCmd 5) fresh) = some 0x214 := by decide
/-- V-REG-10: BUSY wins over ILLEGAL_CMD. -/
theorem test_wrCmd_busy : status (exec (.wrCmd 0xFFFFFFFF) working) = some 0x345 := by decide
theorem test_rdWidth : readWord (exec .rdWidth working) = some 2 := by decide
theorem test_rdHeight : readWord (exec .rdHeight misfit) = some 4 := by decide
theorem test_rdAw : readWord (exec .rdAw { fresh with aw := 7 }) = some 7 := by decide
theorem test_rdAh : readWord (exec .rdAh { fresh with ah := 8 }) = some 8 := by decide
theorem test_rdPixX : readWord (exec .rdPixX { fresh with pixX := 9 }) = some 9 := by decide
theorem test_rdPixY : readWord (exec .rdPixY { fresh with pixY := 6 }) = some 6 := by decide
theorem test_wrWidth : after State.width (exec (.wrWidth 0xFFFFFFFF) idle) = some 0xFFFFFFFF := by decide
theorem test_wrWidth_busy :
    after State.width (exec (.wrWidth 5) working) = some 2 ∧
    status (exec (.wrWidth 5) working) = some 0x345 := by decide
/-- V-REG-17: the exact product is above every capacity. -/
theorem test_wrHeight : status (exec (.wrHeight 0xFFFFFFFF) { fresh with width := 2 }) = some 0 := by decide
theorem test_wrAw : after State.aw (exec (.wrAw 1) fresh) = some 1 := by decide
theorem test_wrAh : after State.ah (exec (.wrAh 0x80000000) fresh) = some 0x80000000 := by decide
theorem test_wrPixX : after State.pixX (exec (.wrPixX 4) fresh) = some 4 := by decide
theorem test_wrPixY : after State.pixY (exec (.wrPixY 5) fresh) = some 5 := by decide
/-- V-REG-13. -/
theorem test_wrPixData :
    after (fun t => (plane t.pb 0 4, plane t.pb 1 4, plane t.pb 2 4)) (exec (.wrPixData 0xFF001E0A) idle) =
      some ([10, 20, 30, 10], [10, 20, 30, 30], [10, 20, 30, 0]) := by decide
/-- V-REG-15: out of bounds. -/
theorem test_wrPixGray_bounds :
    status (exec (.wrPixGray 7) { fresh with width := 4, height := 4, pixX := 4 }) = some 0x234 := by decide
/-- V-REG-14. -/
theorem test_wrPixGray :
    after (fun t => (plane t.pb 0 4, plane t.pb 2 4)) (exec (.wrPixGray 0x1FF) idle) =
      some ([10, 20, 30, 255], [10, 20, 30, 255]) := by decide
/-- V-REG-12. -/
theorem test_rdPixData :
    readWord (exec .rdPixData { idle with pb := { cells := [(9, 10), (10, 20), (11, 30)], epoch := 0 } }) =
      some 0x001E140A := by decide
theorem test_rdPixData_busy : readWord (exec .rdPixData working) = some 0 := by decide
/-- V-REG-12 and, with the new stride, V-REG-16. -/
theorem test_rdPixGray :
    readWord (exec .rdPixGray { idle with pb := { cells := [(9, 10), (10, 20), (11, 30)], epoch := 0 } }) =
      some 0x0A ∧
    readWord (exec .rdPixGray
      { fresh with width := 4, height := 1, pixX := 2, pb := gray [1, 2, 3, 4] }) = some 3 := by decide
theorem test_rdCapacity : readWord (exec .rdCapacity fresh) = some 16 := by decide
theorem test_wrCapacity : exec (.wrCapacity 0) fresh = .next fresh := rfl
theorem test_rdW13 : readWord (exec .rdW13 { fresh with rdata := some 5 }) = some 0 := by decide
theorem test_rdW14 : readWord (exec .rdW14 { fresh with rdata := some 5 }) = some 0 := by decide
theorem test_rdW15 : readWord (exec .rdW15 { fresh with rdata := some 5 }) = some 0 := by decide
theorem test_wrW13 : exec (.wrW13 5) working = .next working := rfl
theorem test_wrW14 : exec (.wrW14 5) working = .next working := rfl
theorem test_wrW15 : exec (.wrW15 5) working = .next working := rfl
/-- V-REG-4 and V-REG-7: NOP skips the geometry check. -/
theorem test_nop : status (exec .nop fresh) = some 0x202 ∧ status (exec .nop misfit) = some 2 := by decide
/-- V-REG-8. -/
theorem test_fwd1_geometry : status (exec .fwd1 { fresh with aw := 1 }) = some 0x224 := by decide
theorem test_fwd1 :
    after State.pending (exec .fwd1 { idle with done := true }) = some (some (record .fwd1 0)) ∧
    status (exec .fwd1 { idle with done := true }) = some 0x301 := by decide
theorem test_inv1 : after State.pending (exec .inv1 idle) = some (some (record .inv1 0)) := by decide
/-- V-REG-7 and V-FN-7. -/
theorem test_fwdn : status (exec (.fwdn 1) misfit) = some 0x24 ∧ status (exec (.fwdn 0) fresh) = some 0x202 := by decide
theorem test_fwdn_accepted :
    after State.pending (exec (.fwdn 31) { idle with aw := 9 }) =
      some (some { record .fwdn 31 with aw := 9 }) := by decide
theorem test_invn :
    after State.pending (exec (.invn 2) idle) = some (some (record .invn 2)) ∧
    status (exec (.invn 0) fresh) = some 0x202 := by decide

/-! ### Completion, reset and the host's placement of an instruction -/

/-- V-F1-1 and V-I1-1 as completions: the image and STATUS after one engine step. -/
theorem test_completion_fwd1 :
    after (fun t => plane t.pb 0 4) (step working) = some [25, 123, 118, 128] ∧
    status (step working) = some 0x302 := by decide
theorem test_completion_inv1 :
    after (fun t => plane t.pb 1 4)
      (step { working with pending := some (record .inv1 0), pb := gray [25, 123, 118, 128] }) =
      some [10, 20, 30, 40] := by decide
/-- FWDN 2 on 2x2 is one level: the region of level 1 is 1x1 (R154). -/
theorem test_completion_fwdn :
    after (fun t => plane t.pb 2 4) (step { working with pending := some (record .fwdn 2) }) =
      some [25, 123, 118, 128] := by decide
theorem test_completion_invn :
    after (fun t => plane t.pb 0 4)
      (step { working with pending := some (record .invn 2), pb := gray [25, 123, 118, 128] }) =
      some [10, 20, 30, 40] := by decide
theorem test_reset_abandons :
    after (fun t => (t.pending, t.done, t.width, t.pb.cells)) (step { working with agenda := [.rst] }) =
      some (none, false, 0, []) := by decide
/-- The fetch from the reset state with its opaque capacity: FWD1 on 0x0 is accepted (V-REG-9). -/
theorem test_fetch_fwd1 : step (State.reset.withFetchWord 32 1) = exec .fwd1 State.reset := rfl
theorem test_fetch_rdStatus :
    readWord (step (State.reset.withFetchWord 40 0x0200000000)) = some 0x200 := by decide
theorem test_fetch_illegal : status (step (fresh.withFetchWord 32 5)) = some 0x214 := by decide

/-! ### Witnesses: states and operands that meet the hypotheses of the statements -/

theorem idle_inImage : inImage idle := by unfold inImage geomFits; decide
theorem misfit_not_geomFits : ¬geomFits misfit := by unfold geomFits; decide

theorem illegal_5 : ∀ i, decode (.cmd 0x00000005) ≠ .ok i := by
  have h : decode (.cmd 0x00000005) = .error .reservedOpcode := rfl
  intro i; rw [h]; exact nofun

theorem test_witness_EncodeOfDecodeIsTheTransfer :
    decode (.cmd 0x1F04) = .ok (.invn 31) ∧ decode (.bus 0x02FFFFFFFF) = .ok .rdStatus ∧
    encode .rdStatus = .bus 0x0200000000 ∧ decode (.bus 0x1F12345678) = .ok (.wrW15 0x12345678) :=
  ⟨rfl, rfl, rfl, rfl⟩

theorem test_witness_IllegalCommandWords :
    (∀ i, decode (.cmd 0x00000005) ≠ .ok i) ∧ fresh.pending = none := ⟨illegal_5, rfl⟩

theorem test_witness_ByteImagesReadBack :
    encode .inv1 = .cmd 2 ∧ encode (.wrAh 7) = .bus 0x1700000007 := by decide

theorem test_witness_AssemblerEncodesCommands :
    assembleLine (.cmd (.fwdn (some 31))) = some [.wrCmd 0x1F03] ∧
    assembleLine (.cmd (.invn (some 0))) = some [.wrCmd 0x0004] ∧
    assembleLine (.cmd (.fwdn (some 32))) = none := by decide

theorem test_witness_SetpixPacksTheChannels :
    (4294967295 < 2 ^ 32 ∧ 255 ≤ 255) ∧
    assembleLine (.setpix 4294967295 0 255 0 1) =
      some [.wrPixX 0xFFFFFFFF, .wrPixY 0, .wrPixData 0x000100FF] ∧
    assembleLine (.setpix 0 0 256 0 0) = none := by decide

theorem test_witness_ConfigurationWritesStoreAllBits :
    fresh.pending = none ∧ working.pending ≠ none := by decide

theorem test_witness_LockedWritesWhileBusyAreRejected : working.pending ≠ none := by decide

/-- The corner pixel, the pixel one column out, the geometry that does not fit, and busy. -/
theorem test_witness_PixDataReadsThePackedPixel :
    (idle.pending = none ∧ inImage idle) ∧ ¬inImage { idle with pixX := 2 } ∧ ¬inImage misfit ∧
    working.pending ≠ none := by
  refine ⟨⟨rfl, idle_inImage⟩, ?_, ?_, by decide⟩ <;> (unfold inImage geomFits; decide)

theorem test_witness_PixGrayReadsChannelZero :
    (idle.pending = none ∧ inImage idle) ∧ ¬inImage { idle with pixY := 2 } := by
  refine ⟨⟨rfl, idle_inImage⟩, ?_⟩; unfold inImage geomFits; decide

theorem test_witness_PixDataWritesThePixel :
    (idle.pending = none ∧ inImage idle) ∧ ¬inImage fresh ∧ working.pending ≠ none := by
  refine ⟨⟨rfl, idle_inImage⟩, ?_, by decide⟩; unfold inImage geomFits; decide

theorem test_witness_PixGrayWritesAllChannels :
    (idle.pending = none ∧ inImage idle) ∧ ¬inImage fresh ∧ working.pending ≠ none :=
  test_witness_PixDataWritesThePixel

/-- Each disjunct at its boundary: x = WIDTH, y = HEIGHT, the product above the capacity, an empty
image. -/
theorem test_witness_OutOfBoundsPortAccess :
    ({ idle with pixX := 2 } : State).width.toNat ≤ ({ idle with pixX := 2 } : State).pixX.toNat ∧
    ({ idle with pixY := 2 } : State).height.toNat ≤ ({ idle with pixY := 2 } : State).pixY.toNat ∧
    misfit.capacity.toNat < misfit.width.toNat * misfit.height.toNat ∧ fresh.width = 0 ∧
    fresh.height = 0 ∧ fresh.pending = none := by decide

theorem test_witness_PortReadsBackWhatItWrote :
    idle.pending = none ∧ inImage idle ∧ ∃ t, exec (.wrPixData 0xFF001E0A) idle = .next t :=
  ⟨rfl, idle_inImage, _, rfl⟩

theorem test_witness_WidthChangeReinterpretsPixels :
    idle.pending = none ∧ (4 : Word) ≠ 0 ∧ inImage idle := ⟨rfl, by decide, idle_inImage⟩

/-- Each clause of the decision, with the word and a state that meet its hypotheses. -/
theorem test_witness_CmdWriteDecision :
    working.pending ≠ none ∧ fresh.pending = none ∧
    4 < ((0x05 : Word).extractLsb' 0 8).toNat ∧ (0x2003 : Word).extractLsb' 13 19 ≠ 0#19 ∧
    (((0x102 : Word).extractLsb' 0 8).toNat ≤ 2 ∧ (0x102 : Word).extractLsb' 8 5 ≠ 0#5) ∧
    ¬geomFits misfit ∧
    (geomFits { idle with aw := 3 } ∧ ({ idle with aw := 3 } : State).width.toNat < 3) ∧
    (geomFits { idle with ah := 3 } ∧ ({ idle with ah := 3 } : State).height.toNat < 3) ∧
    (geomFits idle ∧ ¬(idle.width.toNat < idle.aw.toNat ∨ idle.height.toNat < idle.ah.toNat)) ∧
    ((0x03 : Word).extractLsb' 8 5 = 0#5 ∧ (0x1F04 : Word).extractLsb' 8 5 ≠ 0#5 ∧
      (0x103 : Word).extractLsb' 13 19 = 0#19) := by
  unfold geomFits; decide

theorem test_witness_CmdWriteRunsTheCommand : decode (.cmd 0x0303) = .ok (.fwdn 3) := rfl

theorem test_witness_NopSetsDone :
    fresh.pending = none ∧ working.pending ≠ none ∧
    ((0x80000000 : Word).extractLsb' 0 8 = 0#8 ∧ (0x80000000 : Word).extractLsb' 8 24 ≠ 0#24) ∧
    (0x00000100 : Word).extractLsb' 8 24 ≠ 0#24 ∧
    (({ fresh with irqEn := true } : State).pending = none ∧
      ({ fresh with irqEn := true } : State).irqEn = true) := by decide

/-- The region at its largest, one column too wide, one row too high, a misfit, and busy. -/
theorem test_witness_SingleLevelCommandsAreAccepted :
    idle.pending = none ∧ working.pending ≠ none ∧
    (geomFits idle ∧ idle.aw.toNat ≤ idle.width.toNat ∧ idle.ah.toNat ≤ idle.height.toNat) ∧
    idle.width.toNat < ({ idle with aw := 3 } : State).aw.toNat ∧
    idle.height.toNat < ({ idle with ah := 3 } : State).ah.toNat ∧ ¬geomFits misfit := by
  unfold geomFits; decide

/-- A geometry of exactly the capacity, one above it, and busy. -/
theorem test_witness_MultiLevelCommandsAreAccepted :
    idle.pending = none ∧ working.pending ≠ none ∧ geomFits { idle with width := 4, height := 4 } ∧
    ¬geomFits { idle with width := 17, height := 1 } ∧ (31 : BitVec 5) ≠ 0 := by
  unfold geomFits; decide

/-- Both ways the engine's turn comes, for each kind of command. -/
theorem test_witness_CompletionRunsTheLevels :
    working.pending = some (record .fwd1 0) ∧ working.agenda = [] ∧
    (∀ op n, (record op n).w.toNat * (record op n).h.toNat ≤ working.capacity.toNat ∧
      (record op n).aw.toNat ≤ (record op n).w.toNat ∧ (record op n).ah.toNat ≤ (record op n).h.toNat) ∧
    ({ working with agenda := [.engine, .rst] } : State).agenda = .engine :: [.rst] :=
  ⟨rfl, rfl, fun _ _ => (by decide : (2 : Word).toNat * (2 : Word).toNat ≤ (16 : Word).toNat ∧
    (2 : Word).toNat ≤ (2 : Word).toNat ∧ (2 : Word).toNat ≤ (2 : Word).toNat), rfl⟩

theorem test_witness_CommandsTransformThePixelBuffer :
    idle.pending = none ∧ geomFits idle ∧ (2 : BitVec 5) ≠ 0 ∧
    idle.aw.toNat ≤ idle.width.toNat ∧ idle.ah.toNat ≤ idle.height.toNat := by
  unfold geomFits; decide

/-- The last block of an odd region that fills the image. -/
theorem test_witness_ForwardLevelClosedForm : 5 ≤ 5 ∧ 1 < 5 / 2 ∧ 1 < 5 / 2 := by decide
theorem test_witness_InverseLevelClosedForm : 3 ≤ 4 ∧ 0 < 3 / 2 ∧ 0 < 3 / 2 := by decide

/-- In a 3x3 region of a 3-wide image: the unpaired pixel (2, 0), whose key is 6. -/
theorem test_witness_LevelsTouchOnlyTheEvenRectangle :
    ∀ x y c, x < 2 * (3 / 2) → y < 2 * (3 / 2) → 6 ≠ sampleAddr 3 x y c := by
  unfold sampleAddr; omega

theorem test_witness_DegenerateAndReducedRegions :
    (1 ≤ 4 ∧ 1 < 2) ∧ (3 ≤ 3 ∧ 2 * (3 / 2) = 2) ∧ 0 ≤ 4 := by decide

/-- Sums even and odd, with the larger sample first and second. -/
theorem test_witness_PairRoundTrip :
    ((0 : Byte).toNat + (254 : Byte).toNat) % 2 = 0 ∧
    (((255 : Byte).toNat + (0 : Byte).toNat) % 2 = 1 ∧ (0 : Byte).toNat < (255 : Byte).toNat) ∧
    (((0 : Byte).toNat + (1 : Byte).toNat) % 2 = 1 ∧ (0 : Byte).toNat < (1 : Byte).toNat) := by decide

/-- A 2x2 image of multiples of 4, n = 1. -/
theorem test_witness_ExactRoundTripOnMultiplesOfFour :
    2 ^ 1 ∣ 2 ∧ ∀ x y c, x < 2 → y < 2 →
      4 ^ 1 ∣ (pbByte (gray [252, 4, 0, 8]) (sampleAddr 2 x y c)).toNat := by
  have h : ∀ x : Fin 2, ∀ y : Fin 2, ∀ c : Channel,
      4 ^ 1 ∣ (pbByte (gray [252, 4, 0, 8]) (sampleAddr 2 x.val y.val c)).toNat := by decide
  exact ⟨by decide, fun x y c hx hy => h ⟨x, hx⟩ ⟨y, hy⟩ c⟩

/-- A gray image, every lane of it holding what lane 0 holds; the rectangle is the whole image. -/
theorem test_witness_LanesAreIndependentAndAlike :
    (2 ≤ 2 ∧ 2 * (2 / 2) ≤ 2) ∧ ∀ x y c, x < 2 → y < 2 →
      pbByte (gray [9, 8, 7, 6]) (sampleAddr 2 x y c) =
        pbByte (gray [9, 8, 7, 6]) (sampleAddr 2 x y 0) := by
  have h : ∀ x : Fin 2, ∀ y : Fin 2, ∀ c : Channel,
      pbByte (gray [9, 8, 7, 6]) (sampleAddr 2 x.val y.val c) =
        pbByte (gray [9, 8, 7, 6]) (sampleAddr 2 x.val y.val 0) := by decide
  exact ⟨by decide, fun x y c hx hy => h ⟨x, by omega⟩ ⟨y, by omega⟩ c⟩

/-- The writes of a pass backwards. -/
theorem test_witness_PassOrderDoesNotMatter :
    2 ≤ 2 ∧ (fwdRowWrites 2 2 2 (gray [9, 8, 7, 6])).reverse.Perm
      (fwdRowWrites 2 2 2 (gray [9, 8, 7, 6])) := ⟨by decide, List.reverse_perm _⟩

theorem test_witness_IrqIsALevel :
    (0xFFFFFFFE : Word).getLsbD 0 = false ∧ (6 : Word).getLsbD 1 = true ∧ (6 : Word).getLsbD 2 = true := by
  decide

/-- The first detail column of level 0 in a 4x4 image, after one level and after two. -/
theorem test_witness_LaterLevelsKeepEarlierDetails :
    1 ≤ 2 ∧ 2 < 4 ∧ ¬(2 < 4 / 2 ^ 1 ∧ 0 < 4 / 2 ^ 1) := by decide

/-- A register, DONE, ERR with ERR_CODE, the command in progress, and the port's word, each changed. -/
theorem test_witness_EachFieldHasItsOnlyWriters :
    (∃ t, exec (.wrPixX 4) idle = .next t ∧ t.pixX ≠ idle.pixX) ∧
    (∃ t, exec .nop idle = .next t ∧ t.done ≠ idle.done) ∧
    (∃ t, exec (.wrWidth 5) working = .next t ∧ t.err ≠ working.err ∧ t.errCode ≠ working.errCode) ∧
    (∃ t, exec .inv1 idle = .next t ∧ t.pending ≠ idle.pending) ∧
    (∃ t, exec .rdId idle = .next t ∧ t.rdata ≠ idle.rdata) :=
  ⟨⟨_, rfl, by decide⟩, ⟨_, rfl, by decide⟩, ⟨_, rfl, by decide⟩, ⟨_, rfl, by decide⟩, _, rfl, by decide⟩

theorem test_witness_BusyCommandOwnsItsOperands :
    working.pending = some (record .fwd1 0) ∧ ∃ t, exec (.wrWidth 5) working = .next t :=
  ⟨rfl, _, rfl⟩

/-- An error in force when another is raised, its clearing, and a first error. -/
theorem test_witness_FirstErrorIsLatched :
    ({ idle with err := true, errCode := 2 } : State).err = true ∧
    (∃ t, exec (.wrCmd 5) { idle with err := true, errCode := 2 } = .next t ∧ t.errCode = 2) ∧
    (∃ t, exec (.wrStatus 4) { idle with err := true, errCode := 2 } = .next t ∧ t.err = false) ∧
    (idle.err = false ∧ ∃ t, exec (.wrCmd 5) idle = .next t ∧ t.err = true) :=
  ⟨rfl, ⟨_, rfl, by decide⟩, ⟨_, rfl, by decide⟩, rfl, _, rfl, by decide⟩

theorem test_witness_BusyEndsOnlyByCompletionOrReset :
    working.pending ≠ none ∧ (∃ t, step working = .next t ∧ t.pending = none) ∧
    ∃ t, step { working with agenda := [.rst] } = .next t ∧ t.pending = none :=
  ⟨by decide, ⟨_, rfl, rfl⟩, _, rfl, rfl⟩

theorem test_witness_StepRunsTheDecodedInstruction :
    ({ idle with agenda := [.host (.bus 0x1400000004)] } : State).agenda =
      .host (.bus 0x1400000004) :: [] ∧ decode (.bus 0x1400000004) = .ok (.wrWidth 4) := ⟨rfl, rfl⟩

theorem test_witness_StepReportsIllegalCommandWords :
    ({ working with agenda := [.host (.cmd 5)] } : State).agenda = .host (.cmd 5) :: [] ∧
    ∀ i, decode (.cmd 0x00000005) ≠ .ok i := ⟨rfl, illegal_5⟩

theorem test_witness_IdleStepsChangeNothing :
    idle.pending = none ∧ idle.agenda = [] ∧
    ({ idle with agenda := [.engine] } : State).agenda = .engine :: [] := ⟨rfl, rfl, rfl⟩

theorem test_witness_ResetEventRestoresResetState :
    ({ working with agenda := [.rst, .engine] } : State).agenda = .rst :: [.engine] := rfl

/-- A busy state that meets the invariant and steps: a loaded image with FWD1 in progress. -/
theorem working_inv : working.Inv where
  capacity_pos := by decide
  pb_fits := ⟨by decide, by decide⟩
  sb_fits := ⟨by decide, by decide⟩
  err_code := by decide
  err_code_le := by decide
  busy_not_done := fun _ => rfl
  copies := by intro p h; cases h; decide
  fits := by intro p h; cases h; decide
  levels := by intro p h; cases h; decide

theorem test_witness_ConfigurationReadsReturnTheRegister :
    working.Inv ∧ working.pending = some (record .fwd1 0) := ⟨working_inv, rfl⟩

/-- One host write before the engine's turn. -/
theorem test_witness_HostStepsLeaveTheCommandInProgress :
    let s : State := { working with agenda := [.host (.bus 0x1400000004), .engine] }
    s.pending = some (record .fwd1 0) ∧ 1 ≤ s.agenda.length ∧
    (∀ e ∈ s.agenda.take 1, ∃ tr, e = Event.host tr) ∧
    ∃ t, Host.Core.run Sys2Proof.core 1 s = .next t :=
  ⟨rfl, by decide, fun e he => ⟨.bus 0x1400000004, by simpa using he⟩, _, rfl⟩

theorem test_witness_StepKeepsTheInvariant : working.Inv ∧ ∃ t, step working = .next t :=
  ⟨working_inv, _, rfl⟩
theorem test_witness_InvariantStatesNeverStop : working.Inv := working_inv
theorem test_witness_EveryRunEndsWithNothingPending : working.Inv := working_inv

/-! ### The end of a run (70_reset_and_hazards.md R244) -/

/-- A reset that the environment has left after the program comes after the end of the run: the end
state is the one before it. With a host transaction left, or a command in progress, it is no end. -/
theorem test_finished :
    ({ idle with agenda := [.engine, .rst] } : State).finished = true ∧
    ({ idle with agenda := [.rst, .host (.cmd 0)] } : State).finished = false ∧
    working.finished = false := by decide
theorem test_runToEnd :
    after State.observation (runToEnd 3 { idle with agenda := [.rst] }) = some idle.observation ∧
    idle.observation.pixels = idle.pb.cells := by decide

theorem test_witness_ScratchNeverReachesThePixelBuffer :
    runToEnd 3 { idle with agenda := [.rst] } = .next { idle with agenda := [.rst] } := rfl

end Sys2Proof.Tests
end

section
/-! PROOFS. One step of the machine against the instruction its transfer decodes to (00_scope.md R6,
20_memory.md R62, 30_encoding.md R75). -/

namespace Sys2Proof.Proofs

open Sys2Proof.Machine

/-- What the port performs for a transfer that decodes is the decoded instruction: the port's answer
to an illegal command word (log 2) plays no part. -/
theorem portInstr_of_decode_ok {t : Transfer} {i : Instr} (h : decode t = .ok i) :
    portInstr t = i := by
  cases t with
  | cmd w =>
    have hcmd : decodeCmd w = .ok i := h
    simp only [portInstr, hcmd]
  | bus v => exact Except.ok.inj h

/-- A step at a host transfer consumes that event and runs the port's instruction. -/
theorem step_of_agenda_host {s : State} {t : Transfer} {rest : List Event}
    (h : s.agenda = .host t :: rest) : step s = exec (portInstr t) { s with agenda := rest } := by
  simp only [step, h]

/-- Settles O52: the port's instruction is the decoded one, and a step at a host transfer is `exec`
of the port's instruction. -/
theorem stepRunsTheDecodedInstruction : Obligations.StepRunsTheDecodedInstruction := by
  intro s t rest i hagenda hdecode
  calc step s = exec (portInstr t) { s with agenda := rest } := step_of_agenda_host hagenda
    _ = exec i { s with agenda := rest } := by rw [portInstr_of_decode_ok hdecode]

end Sys2Proof.Proofs
end

section
/-! PROOFS. The interrupt level (10_state.md R39) and the values after reset (R41). -/

namespace Sys2Proof.Proofs

open Sys2Proof.Machine

/-- R39, the equation of `irq`. -/
theorem irq_iff (s : State) :
    s.irq = true ↔ s.irqEn = true ∧ (s.done = true ∨ s.err = true) := by
  simp only [State.irq, Bool.and_eq_true, Bool.or_eq_true]

/-- With IRQ_EN at 0 the level is low. -/
theorem irq_of_irqEn_false {s : State} (h : s.irqEn = false) : s.irq = false := by
  rw [State.irq, h, Bool.false_and]

/-- With DONE and ERR both at 0 the level is low. -/
theorem irq_of_done_err_false {s : State} (hdone : s.done = false) (herr : s.err = false) :
    s.irq = false := by
  rw [State.irq, hdone, herr, Bool.or_self, Bool.and_false]

/-- Bit 10 of STATUS is the level of `irq` (R23). -/
theorem statusWord_bit10 (s : State) : (statusWord s).getLsbD 10 = s.irq := by
  simp only [statusWord, BitVec.getLsbD_append]
  simp

/-- Settles O46: each way of dropping the level clears one factor of R39's equation. -/
theorem irqIsALevel : Obligations.IrqIsALevel := by
  intro s
  refine ⟨irq_iff s, ⟨statusWord s, rfl, statusWord_bit10 s⟩, fun d hd => ?_, fun d h1 h2 => ?_⟩
  · exact ⟨_, rfl, irq_of_irqEn_false hd⟩
  · refine ⟨acknowledge d s, rfl, irq_of_done_err_false ?_ ?_⟩
    · rw [acknowledge_done, h1, Bool.not_true, Bool.and_false]
    · rw [acknowledge_err, h2, Bool.not_true, Bool.and_false]

/-- PIX_CAPACITY is at least 1 (00_scope.md R5): one more than a number below 2^32 - 1 is no
multiple of 2^32. -/
theorem pixCapacity_pos : 0 < Config.pixCapacity.toNat := by
  have hlt := Config.capacityLessOne.isLt
  rw [Config.pixCapacity, BitVec.toNat_ofNat, Nat.mod_eq_of_lt (by omega)]
  exact Nat.succ_pos _

/-- GEOM_OK after reset: `0 * 0 <= PIX_CAPACITY` (R41). -/
theorem reset_geomOk : State.reset.geomOk = true := (geomOk_iff _).2 (Nat.zero_le _)

/-- COORD_OK after reset: `0 < 0` is false (R41). -/
theorem reset_coordOk : State.reset.coordOk = false := by
  rw [State.coordOk, reset_geomOk]
  rfl

/-- The word of STATUS after reset: GEOM_OK alone. -/
theorem reset_statusWord : statusWord State.reset = 0x00000200 := by
  rw [statusWord, reset_geomOk, reset_coordOk]
  rfl

/-- After reset the pixel port reads 0, its coordinate being out of bounds. -/
theorem reset_portRead (value : State → Word) : portRead value State.reset = 0 := by
  rcases portRead_cases value State.reset with ⟨_, hcoord, _⟩ | ⟨_, hzero⟩
  · rw [reset_coordOk] at hcoord
    exact absurd hcoord Bool.false_ne_true
  · exact hzero

/-- Settles O56: the stored values are those of `State.reset`; CAPACITY is positive by its range, and
STATUS and the port are computed from GEOM_OK and COORD_OK. -/
theorem resetStateValues : Obligations.ResetStateValues := by
  have hstatus : exec .rdStatus State.reset = .next (answer (statusWord State.reset) State.reset) :=
    rfl
  have hpixel : exec .rdPixData State.reset = .next (answer (portRead _ State.reset) State.reset) :=
    rfl
  rw [reset_statusWord] at hstatus
  rw [reset_portRead] at hpixel
  exact ⟨rfl, rfl, rfl, rfl, rfl, rfl, rfl, rfl, rfl, rfl, rfl, rfl, pixCapacity_pos, fun _ => rfl,
    fun _ => rfl, rfl, hstatus, rfl, hpixel⟩

/-- Settles O57: nothing is pending and nothing is written after reset. -/
theorem invariantHoldsAtReset : Obligations.InvariantHoldsAtReset where
  capacity_pos := pixCapacity_pos
  pb_fits := (reset_buffers_fit _).1
  sb_fits := (reset_buffers_fit _).2
  err_code := ⟨fun _ => rfl, fun _ => rfl⟩
  err_code_le := Nat.zero_le _
  busy_not_done := fun _ => rfl
  copies := fun _ h => nomatch h
  fits := fun _ h => nomatch h
  levels := fun _ h => nomatch h

end Sys2Proof.Proofs
end

section
/-! PROOFS. The levels of a command write only bytes of entries that exist (41_haar_level.md R140,
R150): every write of a column pass is at a coordinate of the level's region. -/

namespace Sys2Proof.Proofs

open Sys2Proof.Machine

/-- A write at a coordinate of the region of `aw` columns and `ah` rows. -/
def InRegion (aw ah : Nat) (q : SampleWrite) : Prop := q.x < aw ∧ q.y < ah

theorem fwdColWrites_inRegion {w aw ah : Nat} {m : Memory} {q : SampleWrite}
    (hq : q ∈ fwdColWrites w aw ah m) : InRegion aw ah q := by
  obtain ⟨x, hx, c, y, hy, rfl | rfl⟩ := mem_fwdColWrites.1 hq
  · exact ⟨show x < aw by omega, show y < ah by omega⟩
  · exact ⟨show x < aw by omega, show y + ah / 2 < ah by omega⟩

theorem invColWrites_inRegion {w aw ah : Nat} {m : Memory} {q : SampleWrite}
    (hq : q ∈ invColWrites w aw ah m) : InRegion aw ah q := by
  obtain ⟨x, hx, c, y, hy, rfl | rfl⟩ := mem_invColWrites.1 hq
  · exact ⟨show x < aw by omega, show 2 * y < ah by omega⟩
  · exact ⟨show x < aw by omega, show 2 * y + 1 < ah by omega⟩

/-- The precondition of a level (R140): its region fits the image and the image fits the buffer. -/
structure LevelFits (cap : Word) (w h aw ah : Nat) : Prop where
  width : aw ≤ w
  height : ah ≤ h
  image : w * h ≤ cap.toNat

/-- Writes in the region of a level keep a buffer within its capacity. -/
theorem writeSamples_fits_of_inRegion {cap : Word} {w h aw ah : Nat} {m : Memory}
    {qs : List SampleWrite} (hl : LevelFits cap w h aw ah) (hm : m.Fits cap)
    (hq : ∀ q ∈ qs, InRegion aw ah q) : (writeSamples w m qs).Fits cap := by
  refine writeSamples_fits hm fun q hmem => ?_
  obtain ⟨hx, hy⟩ := hq q hmem
  exact sampleAddr_lt q.c (hx.trans_le hl.width) (hy.trans_le hl.height) hl.image

theorem fwdLevel_pb_fits {cap : Word} {w h aw ah : Nat} {b : Buffers}
    (hl : LevelFits cap w h aw ah) (hb : b.pb.Fits cap) : (fwdLevel w aw ah b).pb.Fits cap :=
  writeSamples_fits_of_inRegion hl hb fun _ => fwdColWrites_inRegion

theorem invLevel_pb_fits {cap : Word} {w h aw ah : Nat} {b : Buffers}
    (hl : LevelFits cap w h aw ah) (hb : b.pb.Fits cap) : (invLevel w aw ah b).pb.Fits cap :=
  writeSamples_fits_of_inRegion hl hb fun _ => invColWrites_inRegion

/-- Every level of FWDN and INVN meets the precondition when the image fits (42_commands.md R176). -/
theorem levelFits_levelSide {cap : Word} {w h : Nat} (hn : w * h ≤ cap.toNat) (i : Nat) :
    LevelFits cap w h (levelSide w i) (levelSide h i) :=
  ⟨Nat.shiftRight_le w i, Nat.shiftRight_le h i, hn⟩

theorem fwdLevels_pb_fits {cap : Word} {w h : Nat} (hn : w * h ≤ cap.toNat) (n : Nat) {b : Buffers}
    (hb : b.pb.Fits cap) : (fwdLevels w h n b).pb.Fits cap := by
  induction n with
  | zero => exact hb
  | succ n ih =>
    rw [fwdLevels_succ]
    exact fwdLevel_pb_fits (levelFits_levelSide hn n) ih

theorem invLevels_pb_fits {cap : Word} {w h : Nat} (hn : w * h ≤ cap.toNat) (n : Nat) {b : Buffers}
    (hb : b.pb.Fits cap) : (invLevels w h n b).pb.Fits cap := by
  induction n generalizing b with
  | zero => exact hb
  | succ n ih =>
    rw [invLevels_succ]
    exact ih (invLevel_pb_fits (levelFits_levelSide hn n) hb)

/-- The precondition that a pending record carries, as a proposition. -/
theorem pending_fits_iff (cap : Word) (p : Pending) : p.fits cap = true ↔
    p.w.toNat * p.h.toNat ≤ cap.toNat ∧
      (p.op.usesActive = true → p.aw.toNat ≤ p.w.toNat ∧ p.ah.toNat ≤ p.h.toNat) := by
  cases hu : p.op.usesActive <;> simp [Pending.fits, hu]

/-- The levels of a command that fits keep PB within its capacity, whatever SB holds. -/
theorem runPending_pb_fits {cap : Word} {p : Pending} {b : Buffers} (hp : p.fits cap = true)
    (hb : b.pb.Fits cap) : (runPending p b).pb.Fits cap := by
  obtain ⟨himage, hactive⟩ := (pending_fits_iff cap p).1 hp
  have hregion (hu : p.op.usesActive = true) :
      LevelFits cap p.w.toNat p.h.toNat p.aw.toNat p.ah.toNat :=
    ⟨(hactive hu).1, (hactive hu).2, himage⟩
  cases hop : p.op with simp only [runPending, hop]
  | fwd1 => exact fwdLevel_pb_fits (hregion (by rw [hop]; rfl)) hb
  | inv1 => exact invLevel_pb_fits (hregion (by rw [hop]; rfl)) hb
  | fwdn => exact fwdLevels_pb_fits himage _ hb
  | invn => exact invLevels_pb_fits himage _ hb

end Sys2Proof.Proofs
end

section
/-! PROOFS. The invariant of Safety.lean is kept: first by each operation on the state, then by every
instruction through `exec_effect`, by the engine and by the reset, and so by every step. -/

namespace Sys2Proof.Proofs

open Sys2Proof.Machine

/-! ### The operations -/

/-- The invariant reads none of IRQ_EN, PIX_X, PIX_Y, the agenda and the port's word. -/
theorem inv_with_unread {s : State} (h : s.Inv) (irqEn : Bool) (pixX pixY : Word)
    (agenda : List Event) (rdata : Option Word) :
    { s with irqEn := irqEn, pixX := pixX, pixY := pixY, agenda := agenda, rdata := rdata }.Inv :=
  { h with }

/-- While idle the operand registers are free: no pending record copies them. -/
theorem inv_with_operands {s : State} (h : s.Inv) (hidle : s.pending = none)
    (width height aw ah : Word) :
    { s with width := width, height := height, aw := aw, ah := ah }.Inv :=
  { h with copies := fun _ hp => nomatch hidle.symm.trans hp }

/-- The codes of R200 are those that R27 lists for ERR = 1. -/
theorem code_range (e : HweError) : e.code ≠ 0 ∧ e.code.toNat ≤ 4 := by
  cases e <;> decide

/-- An error in force keeps a code that agrees with ERR; a first error brings one (R203). -/
theorem raiseError_inv {s : State} (e : HweError) (h : s.Inv) : (raiseError e s).Inv := by
  obtain ⟨hne, hle⟩ := code_range e
  have hcode : (raiseError e s).errCode ≠ 0 ∧ (raiseError e s).errCode.toNat ≤ 4 := by
    rw [raiseError_errCode]
    cases herr : s.err with
    | true => exact ⟨fun h0 => by simp [h.err_code.1 h0] at herr, h.err_code_le⟩
    | false => exact ⟨hne, hle⟩
  exact { h with
    err_code := ⟨fun h0 => absurd h0 hcode.1, nofun⟩
    err_code_le := hcode.2 }

/-- A STATUS write clears ERR and ERR_CODE together (R104). -/
theorem acknowledge_inv {s : State} (v : Word) (h : s.Inv) : (acknowledge v s).Inv := by
  have hcode : ((acknowledge v s).errCode = 0 ↔ (acknowledge v s).err = false) ∧
      (acknowledge v s).errCode.toNat ≤ 4 := by
    rw [acknowledge_errCode, acknowledge_err]
    cases v.getLsbD 2 with
    | true => simp
    | false => simpa using ⟨h.err_code, h.err_code_le⟩
  exact { h with
    err_code := hcode.1
    err_code_le := hcode.2
    busy_not_done := fun hbusy => by rw [acknowledge_done, h.busy_not_done hbusy, Bool.false_and] }

/-- A command that completes at acceptance leaves the engine idle (R172). -/
theorem completeNow_inv {s : State} (h : s.Inv) (hidle : s.pending = none) :
    (completeNow s).Inv :=
  { h with busy_not_done := fun hbusy => by simp [hidle] at hbusy }

/-- An accepted command copies the registers it was checked against (R170, R171). -/
theorem accept_inv {s : State} {op : LevelOp} {n : BitVec 5} (h : s.Inv) (hgeom : s.geomOk = true)
    (hactive : op.usesActive = true → activeTooLarge s = false)
    (hn : n = 0#5 ↔ op.usesActive = true) : (accept op n s).Inv where
  capacity_pos := h.capacity_pos
  pb_fits := h.pb_fits
  sb_fits := h.sb_fits
  err_code := h.err_code
  err_code_le := h.err_code_le
  busy_not_done := fun _ => rfl
  copies := fun _ hp => by cases hp; exact ⟨rfl, rfl, rfl, rfl⟩
  fits := fun _ hp => by
    cases hp
    refine (pending_fits_iff _ _).2 ⟨(geomOk_iff s).1 hgeom, fun hu => ?_⟩
    have hsmall : ¬activeTooLarge s = true := by rw [hactive hu]; exact Bool.false_ne_true
    rw [activeTooLarge_iff, not_or, Nat.not_lt, Nat.not_lt] at hsmall
    exact hsmall
  levels := fun _ hp => by cases hp; exact hn

/-- A port write inside the image writes bytes of an entry that exists (R115). -/
theorem writePixel_inv {s : State} (r g b : Byte) (h : s.Inv) (hcoord : s.coordOk = true) :
    (writePixel r g b s).Inv := by
  obtain ⟨himage, hx, hy⟩ := (coordOk_iff s).1 hcoord
  have hpb : (writePixel r g b s).pb.Fits s.capacity := by
    refine writeSamples_fits_of_inRegion ⟨le_rfl, le_rfl, himage⟩ h.pb_fits fun q hq => ?_
    simp only [List.mem_cons, List.not_mem_nil, or_false] at hq
    rcases hq with rfl | rfl | rfl <;> exact ⟨hx, hy⟩
  exact { h with pb_fits := hpb }

/-- A completion runs the levels of a command that fits and leaves nothing pending (R178). -/
theorem complete_inv {s : State} {p : Pending} (h : s.Inv) (hp : p.fits s.capacity = true) :
    (complete p s).Inv where
  capacity_pos := h.capacity_pos
  pb_fits := runPending_pb_fits hp h.pb_fits
  sb_fits := scramble_fits _ _
  err_code := h.err_code
  err_code_le := h.err_code_le
  busy_not_done := nofun
  copies := nofun
  fits := nofun
  levels := nofun

/-- The reset event gives the values after reset, on the same capacity (R230). -/
theorem resetEvent_inv {s : State} (h : s.Inv) : (resetEvent s).Inv :=
  { invariantHoldsAtReset with
    capacity_pos := h.capacity_pos
    pb_fits := scramble_fits _ _
    sb_fits := scramble_fits _ _
    copies := nofun
    fits := nofun
    levels := nofun }

/-! ### Instructions, the engine and the step -/

/-- Every effect an instruction can have keeps the invariant. -/
theorem effect_inv {i : Instr} {s t : State} (h : s.Inv) (heffect : Effect s i t) : t.Inv := by
  cases heffect with
  | read | ctrl | pixX | pixY => exact inv_with_unread h _ _ _ _ _
  | same => exact h
  | rejected => exact raiseError_inv _ h
  | status => exact acknowledge_inv _ h
  | completed _ hidle => exact completeNow_inv h hidle
  | accepted _ _ _ _ hgeom hactive hn => exact accept_inv h hgeom hactive hn
  | width _ hidle | height _ hidle | aw _ hidle | ah _ hidle =>
    exact inv_with_operands h hidle _ _ _ _
  | pixel _ r g b _ hcoord => exact writePixel_inv r g b h hcoord

/-- The engine's turn keeps the invariant. -/
theorem engineTurn_inv {s t : State} (h : s.Inv) (hturn : engineTurn s = .next t) : t.Inv := by
  rcases engineTurn_cases s with ⟨_, e⟩ | ⟨p, _, hfits, e⟩ | ⟨_, _, _, e⟩ <;>
    rw [e] at hturn <;> cases hturn
  · exact h
  · exact complete_inv h hfits

/-- Settles O58: by the event at the head of the agenda, whose removal the invariant does not see. -/
theorem stepKeepsTheInvariant : Obligations.StepKeepsTheInvariant := by
  intro s t h hstep
  have hrest (rest : List Event) : { s with agenda := rest }.Inv := inv_with_unread h _ _ _ _ _
  rcases step_cases s with ⟨_, e⟩ | ⟨tr, rest, _, e⟩ | ⟨rest, _, e⟩ | ⟨rest, _, e⟩ <;>
    rw [e] at hstep
  · exact engineTurn_inv h hstep
  · exact effect_inv (hrest rest) (exec_effect hstep)
  · exact engineTurn_inv (hrest rest) hstep
  · cases hstep
    exact resetEvent_inv (hrest rest)

end Sys2Proof.Proofs
end

section
/-! PROOFS. The pixel port reads back what it wrote (20_memory.md R67, 40_register_access.md R114,
R115, R118). -/

namespace Sys2Proof.Proofs

open Sys2Proof.Machine Sys2Proof.Claims

/-! ### The bytes of the port's pixel -/

/-- COORD_OK is the statements' `inImage` (10_state.md R28). -/
theorem coordOk_iff_inImage (s : State) : s.coordOk = true ↔ inImage s := coordOk_iff s

/-- The three channels of one pixel have different keys. -/
theorem sampleAddr_eq_iff_channel (w x y : Nat) (c c' : Channel) :
    sampleAddr w x y c = sampleAddr w x y c' ↔ c = c' := by
  simp only [sampleAddr, Nat.add_left_cancel_iff, Fin.ext_iff]

/-- A write of the port's pixel is three stores, R then G then B (R115). -/
theorem writePixel_pb (r g b : Byte) (s : State) :
    (writePixel r g b s).pb =
      ((s.pb.store (portAddr s 0) r).store (portAddr s 1) g).store (portAddr s 2) b := by
  simp only [writePixel, writeSamples_cons, writeSamples_nil, writeSample, clampedByte_byte,
    portAddr]

/-- After a write of the port's pixel its three channels are the bytes written: no store of the three
hides another. -/
theorem portByte_writePixel (r g b : Byte) (s : State) :
    portByte (writePixel r g b s) 0 = r ∧ portByte (writePixel r g b s) 1 = g ∧
      portByte (writePixel r g b s) 2 = b := by
  have hread (c : Channel) : portByte (writePixel r g b s) c =
      if c = 2 then b else if c = 1 then g else if c = 0 then r else portByte s c := by
    simp only [portByte, writePixel_width, writePixel_pixX, writePixel_pixY, writePixel_pb,
      pbByte_store, portAddr, sampleAddr_eq_iff_channel]
  exact ⟨hread 0, hread 1, hread 2⟩

/-! ### The port while idle and inside the image -/

/-- A port read while idle and inside the image answers the value. -/
theorem portRead_inside {s : State} (value : State → Word) (hidle : s.pending = none)
    (hcoord : s.coordOk = true) : portRead value s = value s := by
  simp [portRead, hidle, hcoord]

/-- A port write inside the image happens (R116). -/
theorem boundedWrite_inside {s : State} (write : State → State) (hcoord : s.coordOk = true) :
    boundedWrite write s = write s := if_pos hcoord

/-- wr PIX_DATA while idle and inside the image writes the three lanes of its word (R115). -/
theorem exec_wrPixData_inside {s : State} (d : Word) (hidle : s.pending = none)
    (hcoord : s.coordOk = true) :
    exec (.wrPixData d) s = .next (writePixel (lane d 0) (lane d 1) (lane d 2) s) :=
  congrArg Host.Outcome.next ((lockedWrite_idle _ hidle).trans (boundedWrite_inside _ hcoord))

/-- rd PIX_DATA while idle and inside the image answers the packed pixel (R114). -/
theorem exec_rdPixData_inside {s : State} (hidle : s.pending = none) (hcoord : s.coordOk = true) :
    exec .rdPixData s =
      .next (answer (packPixel (portByte s 0) (portByte s 1) (portByte s 2)) s) :=
  congrArg (fun w => Host.Outcome.next (answer w s)) (portRead_inside _ hidle hcoord)

/-- rd PIX_GRAY while idle and inside the image answers channel 0 (R118). -/
theorem exec_rdPixGray_inside {s : State} (hidle : s.pending = none) (hcoord : s.coordOk = true) :
    exec .rdPixGray s = .next (answer ((portByte s 0).setWidth 32) s) :=
  congrArg (fun w => Host.Outcome.next (answer w s)) (portRead_inside _ hidle hcoord)

/-! ### Packing the lanes of a word -/

/-- A mask of `k` ones keeps the bits below `k`. -/
theorem getLsbD_and_lowMask (d : Word) (k i : Nat) :
    (d &&& (BitVec.allOnes k).setWidth 32).getLsbD i = (d.getLsbD i && decide (i < k)) := by
  rw [BitVec.getLsbD_and, BitVec.getLsbD_setWidth, BitVec.getLsbD_allOnes]
  by_cases hi : i < 32
  · simp [hi]
  · simp [BitVec.getLsbD_of_ge d i (Nat.le_of_not_lt hi)]

/-- Packing the lanes of a word gives its bits 23:0 (20_memory.md R56). -/
theorem packPixel_lanes (d : Word) :
    packPixel (lane d 0) (lane d 1) (lane d 2) = d &&& 0x00FFFFFF#32 := by
  have hmask : (0x00FFFFFF#32 : Word) = (BitVec.allOnes 24).setWidth 32 := by decide
  apply BitVec.eq_of_getLsbD_eq
  intro i hi
  rw [hmask, getLsbD_and_lowMask]
  simp only [packPixel, lane, BitVec.getLsbD_append, BitVec.getLsbD_extractLsb']
  by_cases h1 : i < 8
  · simp [h1, show i < 24 by omega]
  · by_cases h2 : i < 16
    · simp [h1, show i - 8 < 8 by omega, show i < 24 by omega, show 8 + (i - 8) = i by omega]
    · by_cases h3 : i < 24
      · simp [h1, h3, show ¬ i - 8 < 8 by omega, show i - 8 - 8 < 8 by omega,
          show 16 + (i - 8 - 8) = i by omega]
      · simp [h1, h3, show ¬ i - 8 < 8 by omega, show ¬ i - 8 - 8 < 8 by omega]

/-- Lane 0 of a word, extended, is its bits 7:0. -/
theorem setWidth_lane_zero (d : Word) : (lane d 0).setWidth 32 = d &&& 0x000000FF#32 := by
  have hmask : (0x000000FF#32 : Word) = (BitVec.allOnes 8).setWidth 32 := by decide
  apply BitVec.eq_of_getLsbD_eq
  intro i hi
  rw [hmask, getLsbD_and_lowMask, lane, BitVec.getLsbD_setWidth, BitVec.getLsbD_extractLsb']
  simp [hi, Bool.and_comm]

/-- Settles O25: the write leaves the lanes of its word in the pixel and the coordinate in the image,
so both reads answer those lanes. -/
theorem portReadsBackWhatItWrote : Obligations.PortReadsBackWhatItWrote := by
  intro s t d hidle himage hexec
  have hcoord := (coordOk_iff_inImage s).2 himage
  rw [exec_wrPixData_inside d hidle hcoord] at hexec
  obtain ⟨hr, hg, hb⟩ := portByte_writePixel (lane d 0) (lane d 1) (lane d 2) s
  have ht := Host.Outcome.next.inj hexec
  have hidle' : t.pending = none := by rw [← ht, writePixel_pending, hidle]
  have hcoord' : t.coordOk = true := by rw [← ht]; exact hcoord
  rw [ht] at hr hg hb
  rw [exec_rdPixData_inside hidle' hcoord', exec_rdPixGray_inside hidle' hcoord', hr, hg, hb,
    packPixel_lanes, setWidth_lane_zero]
  exact ⟨rfl, rfl⟩

end Sys2Proof.Proofs
end

section
/-! PROOFS. A new WIDTH or HEIGHT moves no pixel data (20_memory.md R51, R52). -/

namespace Sys2Proof.Proofs

open Sys2Proof.Machine Sys2Proof.Claims

/-- A locked write of a register leaves PB as it is, whether it happens or is rejected. -/
theorem lockedWrite_pb {write : State → State} (hwrite : ∀ s, (write s).pb = s.pb) (s : State) :
    (lockedWrite write s).pb = s.pb := by
  rcases lockedWrite_cases write s with ⟨_, e⟩ | ⟨_, e⟩ <;> rw [e]
  · exact raiseError_pb _ s
  · exact hwrite s

/-- The coordinate of index `i` under row stride `w` has the key of index `i` (R51). -/
theorem sampleAddr_mod_div (w i : Nat) (c : Channel) :
    sampleAddr w (i % w) (i / w) c = 3 * i + c.val := by
  rw [sampleAddr, Nat.div_add_mod']

/-- Settles O26: PB is the same after either write, so a new stride only renames its keys. -/
theorem widthChangeReinterpretsPixels : Obligations.WidthChangeReinterpretsPixels := by
  have hwidth (d : Word) := lockedWrite_pb (write := fun s => { s with width := d }) fun _ => rfl
  have hheight (d : Word) := lockedWrite_pb (write := fun s => { s with height := d }) fun _ => rfl
  refine ⟨fun s d i c _ _ => ⟨_, rfl, hwidth d s, ?_⟩,
    fun s d => ⟨_, _, rfl, hwidth d s, rfl, hheight d s⟩, fun s c himage => ?_⟩
  · rw [hwidth, sampleAddr_mod_div]
  · obtain ⟨_, hx, hy⟩ := himage
    exact sampleAddr_lt c hx hy le_rfl

end Sys2Proof.Proofs
end

section
/-! PROOFS. Which instruction writes which field (20_memory.md R59, R66, 40_register_access.md R100,
R112), read off the effects of `exec_effect`. -/

namespace Sys2Proof.Proofs

open Sys2Proof.Machine

/-- Settles O49: an effect on the operands, PB or what is in progress needs the engine idle. -/
theorem busyCommandOwnsItsOperands : Obligations.BusyCommandOwnsItsOperands := by
  intro i s t p hpending hexec
  cases exec_effect hexec with
  | read | same | rejected | ctrl | status =>
    exact ⟨hpending, rfl, rfl, rfl, rfl, rfl, rfl, rfl, rfl⟩
  | completed _ hidle | accepted _ _ _ hidle | width _ hidle | height _ hidle | aw _ hidle
  | ah _ hidle | pixX _ hidle | pixY _ hidle | pixel _ _ _ _ hidle =>
    exact nomatch hidle.symm.trans hpending

/-! ### The writers of each field -/

section

variable {i : Instr} {s t : State}

/-- The instructions that can put a command in progress, as a list. -/
theorem offersCommand_mem (h : offersCommand i) : ∃ (n : BitVec 5) (d : Word),
    i ∈ [Instr.fwd1, .inv1, .fwdn n, .invn n, .wrCmd d] := by
  obtain rfl | rfl | ⟨n, rfl | rfl⟩ | ⟨d, rfl⟩ := h
  · exact ⟨0, 0, by simp⟩
  · exact ⟨0, 0, by simp⟩
  · exact ⟨n, 0, by simp⟩
  · exact ⟨n, 0, by simp⟩
  · exact ⟨0, d, by simp⟩

/-- IRQ_EN changes by a write of CTRL (R102). -/
theorem irqEn_writer (h : Effect s i t) (hne : t.irqEn ≠ s.irqEn) : ∃ d, i = .wrCtrl d := by
  cases h with
  | ctrl d => exact ⟨d, rfl⟩
  | _ => exact absurd rfl hne

/-- DONE changes by a command or a write of STATUS (10_state.md R25). -/
theorem done_writer (h : Effect s i t) (hne : t.done ≠ s.done) : ∃ (n : BitVec 5) (d : Word),
    i ∈ [Instr.nop, .fwd1, .inv1, .fwdn n, .invn n, .wrCmd d, .wrStatus d] := by
  have hcommand (hi : offersCommand i) : ∃ (n : BitVec 5) (d : Word),
      i ∈ [Instr.nop, .fwd1, .inv1, .fwdn n, .invn n, .wrCmd d, .wrStatus d] := by
    obtain ⟨n, d, hmem⟩ := offersCommand_mem hi
    exact ⟨n, d, List.mem_cons_of_mem _ (List.mem_append_left [Instr.wrStatus d] hmem)⟩
  cases h with
  | status d => exact ⟨0, d, by simp⟩
  | completed _ _ hi =>
    obtain rfl | hi := hi
    · exact ⟨0, 0, List.mem_cons_self⟩
    · exact hcommand hi
  | accepted _ _ _ _ _ _ _ hi => exact hcommand hi
  | _ => exact absurd rfl hne

/-- ERR and ERR_CODE change by a write that can be rejected or a write of STATUS (10_state.md R26,
60_exceptions.md R203). -/
theorem err_writer (h : Effect s i t) (hne : t.err ≠ s.err ∨ t.errCode ≠ s.errCode) :
    ∃ (n : BitVec 5) (d : Word),
      i ∈ [Instr.nop, .fwd1, .inv1, .fwdn n, .invn n, .wrCmd d, .wrWidth d, .wrHeight d, .wrAw d,
        .wrAh d, .wrPixX d, .wrPixY d, .wrPixData d, .wrPixGray d, .wrStatus d] := by
  cases h with
  | status d => exact ⟨0, d, by simp⟩
  | rejected _ _ hi =>
    obtain rfl | hi | ⟨d, hmem⟩ := hi
    · exact ⟨0, 0, List.mem_cons_self⟩
    · obtain ⟨n, d, hmem⟩ := offersCommand_mem hi
      exact ⟨n, d, List.mem_cons_of_mem _ (List.mem_append_left _ hmem)⟩
    · exact ⟨0, d, List.mem_append_right [Instr.nop, .fwd1, .inv1, .fwdn 0, .invn 0, .wrCmd d]
        (List.mem_append_left [Instr.wrStatus d] hmem)⟩
  | _ => exact hne.elim (absurd rfl) (absurd rfl)

/-! Each configuration register changes by its own write (R108). -/

theorem width_writer (h : Effect s i t) (hne : t.width ≠ s.width) : ∃ d, i = .wrWidth d := by
  cases h with
  | width d => exact ⟨d, rfl⟩
  | _ => exact absurd rfl hne

theorem height_writer (h : Effect s i t) (hne : t.height ≠ s.height) : ∃ d, i = .wrHeight d := by
  cases h with
  | height d => exact ⟨d, rfl⟩
  | _ => exact absurd rfl hne

theorem aw_writer (h : Effect s i t) (hne : t.aw ≠ s.aw) : ∃ d, i = .wrAw d := by
  cases h with
  | aw d => exact ⟨d, rfl⟩
  | _ => exact absurd rfl hne

theorem ah_writer (h : Effect s i t) (hne : t.ah ≠ s.ah) : ∃ d, i = .wrAh d := by
  cases h with
  | ah d => exact ⟨d, rfl⟩
  | _ => exact absurd rfl hne

theorem pixX_writer (h : Effect s i t) (hne : t.pixX ≠ s.pixX) : ∃ d, i = .wrPixX d := by
  cases h with
  | pixX d => exact ⟨d, rfl⟩
  | _ => exact absurd rfl hne

theorem pixY_writer (h : Effect s i t) (hne : t.pixY ≠ s.pixY) : ∃ d, i = .wrPixY d := by
  cases h with
  | pixY d => exact ⟨d, rfl⟩
  | _ => exact absurd rfl hne

/-- PB changes by a write through the pixel port (20_memory.md R59). -/
theorem pb_writer (h : Effect s i t) (hne : t.pb ≠ s.pb) :
    ∃ d, i = .wrPixData d ∨ i = .wrPixGray d := by
  cases h with
  | pixel _ _ _ _ _ _ hi => exact hi
  | _ => exact absurd rfl hne

/-- What is in progress changes by the acceptance of a command. -/
theorem pending_writer (h : Effect s i t) (hne : t.pending ≠ s.pending) :
    ∃ (n : BitVec 5) (d : Word), i ∈ [Instr.fwd1, .inv1, .fwdn n, .invn n, .wrCmd d] := by
  cases h with
  | accepted _ _ _ _ _ _ _ hi => exact offersCommand_mem hi
  | _ => exact absurd rfl hne

/-- The port's word changes by a read (log 4). -/
theorem rdata_writer (h : Effect s i t) (hne : t.rdata ≠ s.rdata) : isRead i := by
  cases h with
  | read _ _ hi => exact hi
  | _ => exact absurd rfl hne

/-- No instruction changes SB, CAPACITY or the agenda. -/
theorem effect_unwritten (h : Effect s i t) :
    t.sb = s.sb ∧ t.capacity = s.capacity ∧ t.agenda = s.agenda := by
  cases h <;> exact ⟨rfl, rfl, rfl⟩

end

/-- Settles O48: field by field, from the effects that change it. -/
theorem eachFieldHasItsOnlyWriters : Obligations.EachFieldHasItsOnlyWriters := by
  intro i s t hexec
  have h := exec_effect hexec
  exact ⟨irqEn_writer h, done_writer h, err_writer h, width_writer h, height_writer h, aw_writer h,
    ah_writer h, pixX_writer h, pixY_writer h, pb_writer h, pending_writer h, rdata_writer h,
    effect_unwritten h⟩

end Sys2Proof.Proofs
end

section
/-! PROOFS. The decoder and the encoder of 30_encoding.md invert each other (R70 to R76), and which
command words are legal (R74). -/

namespace Sys2Proof.Proofs

open Sys2Proof.Machine Sys2Proof.Claims

/-! ### BUS values (R75, R76) -/

/-- A BUS value put together from its fields decodes to the row of its direction and index. -/
theorem decode_busValue (we : Bool) (a : BitVec 4) (d : Word) : decode (.bus (busValue we a d)) =
    .ok (if we then writeOf (regAt a) d else readOf (regAt a)) := by
  simp only [decode, decodeBus, busWE_busValue, busAddr_busValue, busData_busValue]

/-- The read rows of R76: WE = 0, and D plays no part. -/
theorem decode_readRow (a : BitVec 4) (d : Word) :
    decode (.bus (0#1 ++ a ++ d)) = .ok (readOf (regAt a)) := decode_busValue false a d

/-- The write rows of R76: WE = 1. -/
theorem decode_writeRow (a : BitVec 4) (d : Word) :
    decode (.bus (1#1 ++ a ++ d)) = .ok (writeOf (regAt a) d) := decode_busValue true a d

/-- A read is written with its D at 0 (R75). -/
theorem encode_readOf (r : Reg) : encode (readOf r) = .bus (busValue false (regIndex r) 0) := by
  cases r <;> rfl

/-- A write carries its data in D (R75). -/
theorem encode_writeOf (r : Reg) (d : Word) :
    encode (writeOf r d) = .bus (busValue true (regIndex r) d) := by
  cases r <;> rfl

/-- The encoder puts a decoded BUS value back from its fields, a read with D at 0. -/
theorem encode_decodeBus (v : BitVec 37) :
    encode (decodeBus v) =
      .bus (busValue (busWE v) (busAddr v) (if busWE v then busData v else 0)) := by
  unfold decodeBus
  cases busWE v with
  | false => exact (encode_readOf _).trans (by rw [regIndex_regAt]; rfl)
  | true => exact (encode_writeOf _ _).trans (by rw [regIndex_regAt]; rfl)

/-- The mask that keeps WE and A writes D as 0. -/
theorem busValue_and_mask (we : Bool) (a : BitVec 4) (d : Word) :
    busValue we a d &&& 0x1F00000000#37 = busValue we a 0 := by
  have hmask : 0x1F00000000#37 = BitVec.allOnes 1 ++ BitVec.allOnes 4 ++ (0 : Word) := by decide
  rw [hmask, busValue, BitVec.and_append, BitVec.and_append, BitVec.and_allOnes, BitVec.and_allOnes]
  simp [busValue]

/-! ### Command words (R70 to R74) -/

/-- The opcode table's command rows (R71): the legal words and what each stands for. -/
inductive CommandWord : Word → Instr → Prop
  | nop : CommandWord (cmdWord 0 0) .nop
  | fwd1 : CommandWord (cmdWord 1 0) .fwd1
  | inv1 : CommandWord (cmdWord 2 0) .inv1
  | fwdn (n : BitVec 5) : CommandWord (cmdWord 3 n) (.fwdn n)
  | invn (n : BitVec 5) : CommandWord (cmdWord 4 n) (.invn n)

theorem CommandWord.encode_eq {w : Word} {i : Instr} (h : CommandWord w i) :
    encode i = .cmd w := by
  cases h <;> rfl

theorem CommandWord.decode_eq {w : Word} {i : Instr} (h : CommandWord w i) :
    decode (.cmd w) = .ok i := by
  cases h <;> simp [decode, decodeCmd, cmdRsvd_cmdWord, cmdOp_cmdWord, cmdLevels_cmdWord]

/-- What decodes is a row of R71: each accepting branch of the decoder fixes the fields of its row. -/
theorem commandWord_of_decode {w : Word} {i : Instr} (h : decode (.cmd w) = .ok i) :
    CommandWord w i := by
  simp only [decode, decodeCmd] at h
  split at h
  · cases h
  next hr =>
    rw [← cmdWord_fields (Decidable.not_not.1 hr)]
    split_ifs at h with hop hl hop hl hop hl hop hop <;> cases h
    · rw [hop, hl]; exact .nop
    · rw [hop, hl]; exact .fwd1
    · rw [hop, hl]; exact .inv1
    · rw [hop]; exact .fwdn _
    · rw [hop]; exact .invn _

theorem decode_cmd_iff (w : Word) (i : Instr) : decode (.cmd w) = .ok i ↔ CommandWord w i :=
  ⟨commandWord_of_decode, CommandWord.decode_eq⟩

/-! ### The round trips -/

/-- Settles O1: a command by its row of R71, a BUS transaction by the fields of its value. -/
theorem decodeOfEncodeIsTheInstruction : Obligations.DecodeOfEncodeIsTheInstruction := by
  intro i
  cases i with
  | nop => exact CommandWord.nop.decode_eq
  | fwd1 => exact CommandWord.fwd1.decode_eq
  | inv1 => exact CommandWord.inv1.decode_eq
  | fwdn n => exact (CommandWord.fwdn n).decode_eq
  | invn n => exact (CommandWord.invn n).decode_eq
  | _ => exact decode_busValue _ _ _

/-- Settles O2: a command word is that of its row, a BUS value is put together again from its fields,
and the mask is D at 0. -/
theorem encodeOfDecodeIsTheTransfer : Obligations.EncodeOfDecodeIsTheTransfer := by
  refine ⟨fun w i h => (commandWord_of_decode h).encode_eq, fun v i h => ?_⟩
  obtain rfl : decodeBus v = i := Except.ok.inj h
  rw [encode_decodeBus]
  change _ = Transfer.bus (if busWE v = true then v else v &&& 0x1F00000000#37)
  split
  next => rw [busValue_fields]
  next => rw [← busValue_and_mask _ _ (busData v), busValue_fields]

/-- Settles O3: each row is the decoder at the row's direction and index. -/
theorem busTableDecodesEveryValue : Obligations.BusTableDecodesEveryValue := by
  refine ⟨fun d => ?_, fun v => ⟨decodeBus v, rfl⟩⟩
  have rd (a : BitVec 4) := decode_readRow a d
  have wr (a : BitVec 4) := decode_writeRow a d
  exact ⟨rd 0, rd 1, rd 2, rd 3, rd 4, rd 5, rd 6, rd 7,
    rd 8, rd 9, rd 10, rd 11, rd 12, rd 13, rd 14, rd 15,
    wr 0, wr 1, wr 2, wr 3, wr 4, wr 5, wr 6, wr 7,
    wr 8, wr 9, wr 10, wr 11, wr 12, wr 13, wr 14, wr 15⟩

/-! ### The illegal words (R74) -/

theorem CommandWord.legal {w : Word} {i : Instr} (h : CommandWord w i) :
    illegalCommand w = false := by
  cases h <;> simp [illegalCommand, cmdRsvd_cmdWord, cmdOp_cmdWord, cmdLevels_cmdWord]

/-- OP is 0, 1 or 2 exactly when it is at most 2. -/
theorem toNat_le_two_iff (op : BitVec 8) : op.toNat ≤ 2 ↔ op = 0 ∨ op = 1 ∨ op = 2 := by
  simp only [BitVec.toNat_eq, BitVec.ofNat_eq_ofNat, BitVec.toNat_ofNat]
  omega

/-- The predicate of R74 on the fields of a word. -/
theorem illegalCommand_iff (w : Word) : illegalCommand w = true ↔
    4 < (cmdOp w).toNat ∨ cmdRsvd w ≠ 0#19 ∨ ((cmdOp w).toNat ≤ 2 ∧ cmdLevels w ≠ 0#5) := by
  simp [illegalCommand, toNat_le_two_iff, or_assoc]

/-- A word that R74 does not rule out is a row of R71: its OP is 0 to 4, and its LEVELS is free only
for FWDN and INVN. -/
theorem exists_commandWord_of_legal {w : Word} (h : ¬illegalCommand w = true) :
    ∃ i, CommandWord w i := by
  rw [illegalCommand_iff] at h
  push Not at h
  obtain ⟨hop, hrsvd, hlevels⟩ := h
  have hcases : (cmdOp w).toNat ≤ 2 ∨ cmdOp w = 3 ∨ cmdOp w = 4 := by
    simp only [BitVec.toNat_eq, BitVec.ofNat_eq_ofNat, BitVec.toNat_ofNat]
    omega
  rw [← cmdWord_fields hrsvd]
  obtain hle | hop | hop := hcases
  · rw [hlevels hle]
    obtain hop | hop | hop := (toNat_le_two_iff _).1 hle <;> rw [hop]
    exacts [⟨_, .nop⟩, ⟨_, .fwd1⟩, ⟨_, .inv1⟩]
  · rw [hop]; exact ⟨_, .fwdn _⟩
  · rw [hop]; exact ⟨_, .invn _⟩

/-- The decoder rejects exactly the words of R74. -/
theorem illegalCommand_iff_decode (w : Word) :
    illegalCommand w = true ↔ ∀ i, decode (.cmd w) ≠ .ok i := by
  constructor
  · intro h i hi
    simp [(commandWord_of_decode hi).legal] at h
  · intro h
    by_contra hlegal
    obtain ⟨i, hi⟩ := exists_commandWord_of_legal hlegal
    exact h i hi.decode_eq

/-- An illegal word written to CMD while idle is rejected with code 1 (R74, 42_commands.md R170). -/
theorem exec_wrCmd_illegal {w : Word} {s : State} (hillegal : illegalCommand w = true)
    (hidle : s.pending = none) : exec (.wrCmd w) s = .next (rejected 1 s) := by
  have hoffer : offer w s = raiseError .illegalCmd s := if_pos hillegal
  exact congrArg Host.Outcome.next ((lockedWrite_idle _ hidle).trans hoffer)

/-! ### The count of the legal words (R74) -/

/-- The values of LEVELS (R72). -/
def levelCounts : List (BitVec 5) := (List.finRange 32).map BitVec.ofFin

theorem mem_levelCounts (n : BitVec 5) : n ∈ levelCounts :=
  List.mem_map.2 ⟨n.toFin, List.mem_finRange _, rfl⟩

/-- The legal command words, row by row of R71. -/
def legalWords : List Word :=
  [cmdWord 0 0, cmdWord 1 0, cmdWord 2 0] ++ levelCounts.map (cmdWord 3) ++
    levelCounts.map (cmdWord 4)

theorem legalWords_length : legalWords.length = 3 + 2 * 32 := by
  simp [legalWords, levelCounts]

theorem legalWords_nodup : legalWords.Nodup := by decide

theorem mem_legalWords (w : Word) : w ∈ legalWords ↔ ∃ i, CommandWord w i := by
  simp only [legalWords, List.mem_append, List.mem_cons, List.not_mem_nil, or_false, List.mem_map,
    mem_levelCounts, true_and]
  constructor
  · rintro (((rfl | rfl | rfl) | ⟨n, rfl⟩) | ⟨n, rfl⟩)
    exacts [⟨_, .nop⟩, ⟨_, .fwd1⟩, ⟨_, .inv1⟩, ⟨_, .fwdn n⟩, ⟨_, .invn n⟩]
  · rintro ⟨i, h⟩
    cases h <;> simp

/-- Settles O4: R74's predicate is the decoder's rejection, a rejected word raises ILLEGAL_CMD, and
the rows of R71 hold 67 words. -/
theorem illegalCommandWords : Obligations.IllegalCommandWords := by
  refine ⟨fun w => (illegalCommand_iff w).symm.trans (illegalCommand_iff_decode w),
    fun w s h => exec_wrCmd_illegal ((illegalCommand_iff_decode w).2 h),
    legalWords, legalWords_length, legalWords_nodup, fun w => ?_⟩
  simp only [decode_cmd_iff, mem_legalWords]

end Sys2Proof.Proofs
end

section
/-! PROOFS. The model's byte images (log 3) read back. -/

namespace Sys2Proof.Proofs

/-- A bit vector's image from bit `s` on: the byte at `s`, then the image from bit `s + 8` on. -/
theorem bytesOf_succ_toNat {m : Nat} (v : BitVec m) (n s : Nat) :
    bytesOf (n + 1) (v.toNat >>> s) = v.extractLsb' s 8 :: bytesOf n (v.toNat >>> (s + 8)) := by
  rw [bytesOf, Nat.shiftRight_add, Nat.shiftRight_eq_div_pow _ 8]
  rfl

/-- The bytes of a command word, the least significant first. -/
theorem bytesOfTransfer_cmd (w : Word) : bytesOfTransfer (.cmd w) =
    [w.extractLsb' 0 8, w.extractLsb' 8 8, w.extractLsb' 16 8, w.extractLsb' 24 8] := by
  change bytesOf 4 (w.toNat >>> 0) = _
  simp only [bytesOf_succ_toNat]
  rfl

/-- The bytes of a BUS value, the least significant first. -/
theorem bytesOfTransfer_bus (v : BitVec 37) : bytesOfTransfer (.bus v) =
    [v.extractLsb' 0 8, v.extractLsb' 8 8, v.extractLsb' 16 8, v.extractLsb' 24 8,
      v.extractLsb' 32 8] := by
  change bytesOf 5 (v.toNat >>> 0) = _
  simp only [bytesOf_succ_toNat]
  rfl

/-- A byte and the bits above it, put together. -/
theorem extractLsb'_append_byte {m : Nat} (v : BitVec m) (s n : Nat) :
    v.extractLsb' (s + 8) n ++ v.extractLsb' s 8 = v.extractLsb' s (n + 8) :=
  BitVec.extractLsb'_append_extractLsb'_eq_extractLsb' rfl

/-- The last byte of a BUS value's image holds its top five bits (R75) and zeros above WE. -/
theorem busTopByte_fields (v : BitVec 37) : (v.extractLsb' 32 8).extractLsb' 5 3 = 0#3 ∧
    (v.extractLsb' 32 8).extractLsb' 0 5 = v.extractLsb' 32 5 := by
  have hv := v.isLt
  simp only [BitVec.toNat_eq, BitVec.extractLsb'_toNat, Nat.shiftRight_eq_div_pow,
    BitVec.toNat_ofNat]
  omega

/-- The image of a transfer is read back as the transfer. -/
theorem transferOfBytes_bytesOfTransfer (t : Transfer) :
    transferOfBytes (bytesOfTransfer t) = .ok t := by
  cases t with
  | cmd w =>
    rw [bytesOfTransfer_cmd, transferOfBytes]
    congr 2
    rw [extractLsb'_append_byte w 16 8, extractLsb'_append_byte w 8 16,
      extractLsb'_append_byte w 0 24]
    exact BitVec.extractLsb'_eq_self
  | bus v =>
    obtain ⟨habove, htop⟩ := busTopByte_fields v
    rw [bytesOfTransfer_bus, transferOfBytes, if_pos habove, htop]
    congr 2
    rw [extractLsb'_append_byte v 24 5, extractLsb'_append_byte v 16 13,
      extractLsb'_append_byte v 8 21, extractLsb'_append_byte v 0 29]
    exact BitVec.extractLsb'_eq_self

/-- The decoder on the image of an encoded instruction. -/
theorem decodeBytes_of_encode_eq {i : Instr} {t : Transfer} (h : encode i = t) :
    decodeBytes (bytesOfTransfer t) = .ok i := by
  simp only [decodeBytes, transferOfBytes_bytesOfTransfer]
  rw [← h]
  exact decodeOfEncodeIsTheInstruction i

/-- An opcode-table word is decoded from its bytes, as many as hold its bits. -/
theorem decodeTableWord_of_decodeBytes {nbits w : Nat} {i : Instr}
    (h : decodeBytes (bytesOf ((nbits + 7) / 8) w) = .ok i) : decodeTableWord nbits w = some i := by
  simp only [decodeTableWord, h]

/-- Settles O6: 32 bits are the four bytes of a command word and 40 bits the five of a BUS value, and
those decode by the round trip of instructions. -/
theorem byteImagesReadBack : Obligations.ByteImagesReadBack :=
  ⟨transferOfBytes_bytesOfTransfer,
    fun _ _ h => decodeTableWord_of_decodeBytes (decodeBytes_of_encode_eq h),
    fun _ _ h => decodeTableWord_of_decodeBytes (decodeBytes_of_encode_eq h)⟩

end Sys2Proof.Proofs
end

section
/-! PROOFS. The assembler (30_encoding.md R77, R79) and the encoding examples (R80). -/

namespace Sys2Proof.Proofs

/-- A line that passes its checks assembles to its transactions. -/
theorem assembleLine_of_wellFormed {l : Line} (h : l.wellFormed = true) :
    assembleLine l = some (expandLine l) := if_pos h

/-- A line that fails a check is an assembly error. -/
theorem assembleLine_of_not_wellFormed {l : Line} (h : l.wellFormed = false) :
    assembleLine l = none := by
  simp [assembleLine, h]

/-! ### setpix (R79) -/

theorem setpix_wellFormed_iff (x y r g b : Nat) : (Line.setpix x y r g b).wellFormed = true ↔
    x < 2 ^ 32 ∧ y < 2 ^ 32 ∧ r ≤ 255 ∧ g ≤ 255 ∧ b ≤ 255 := by
  simp [Line.wellFormed, isWordValue, isSampleValue, and_assoc]

/-- The shifted samples do not overlap, so the data word of setpix is their sum. -/
theorem setpixData_toNat {r g b : Nat} (hr : r ≤ 255) (hg : g ≤ 255) (hb : b ≤ 255) :
    (BitVec.ofNat 32 (b <<< 16 ||| g <<< 8 ||| r)).toNat = b * 65536 + g * 256 + r := by
  have hsum : b <<< 16 ||| g <<< 8 ||| r = (b <<< 8 + g) <<< 8 + r := by
    rw [Nat.shiftLeft_add_eq_or_of_lt (by omega), Nat.shiftLeft_add_eq_or_of_lt (by omega),
      Nat.shiftLeft_or_distrib, ← Nat.shiftLeft_add]
  rw [BitVec.toNat_ofNat, hsum, Nat.shiftLeft_eq, Nat.shiftLeft_eq]
  omega

/-- The lanes of the data word of setpix (20_memory.md R56) are its samples, with 0 above. -/
theorem setpixData_lanes {r g b : Nat} (hr : r ≤ 255) (hg : g ≤ 255) (hb : b ≤ 255) {d : Word}
    (hd : d = BitVec.ofNat 32 (b <<< 16 ||| g <<< 8 ||| r)) :
    (d.extractLsb' 0 8).toNat = r ∧ (d.extractLsb' 8 8).toNat = g ∧
      (d.extractLsb' 16 8).toNat = b ∧ d.extractLsb' 24 8 = 0#8 := by
  simp only [hd, BitVec.toNat_eq, BitVec.extractLsb'_toNat, setpixData_toNat hr hg hb,
    Nat.shiftRight_eq_div_pow, BitVec.toNat_ofNat]
  omega

/-- Settles O8: a setpix line passes its checks exactly within its ranges, and the lanes of its data
word are the samples. -/
theorem setpixPacksTheChannels : Obligations.SetpixPacksTheChannels := by
  constructor
  · intro x y r g b hx hy hr hg hb
    have hwf := (setpix_wellFormed_iff x y r g b).2 ⟨hx, hy, hr, hg, hb⟩
    exact ⟨_, assembleLine_of_wellFormed hwf, setpixData_lanes hr hg hb rfl⟩
  · intro x y r g b h
    refine assembleLine_of_not_wellFormed (Bool.eq_false_iff.2 fun hwf => ?_)
    obtain ⟨-, -, hr, hg, hb⟩ := (setpix_wellFormed_iff x y r g b).1 hwf
    omega

/-! ### Commands (R77) -/

/-- A command word as a number: OP, with LEVELS at bit 8 (R70). -/
theorem ofNat_eq_cmdWord (op : BitVec 8) {n : Nat} (hn : n ≤ 31) :
    BitVec.ofNat 32 (op.toNat ||| n <<< 8) = cmdWord op (BitVec.ofNat 5 n) := by
  have hop := op.isLt
  have hsum : n <<< 8 + op.toNat = op.toNat ||| n <<< 8 := by
    rw [Nat.shiftLeft_add_eq_or_of_lt hop, Nat.or_comm]
  apply BitVec.eq_of_toNat_eq
  rw [← hsum, cmdWord, BitVec.toNat_append, BitVec.toNat_append,
    ← Nat.shiftLeft_add_eq_or_of_lt hop]
  simp only [BitVec.toNat_ofNat, BitVec.ofNat_eq_ofNat, Nat.shiftLeft_eq, Nat.zero_mod, Nat.zero_mul,
    Nat.zero_or]
  omega

/-- FWDN and INVN with a count up to 31 assemble to the words of their rows. -/
theorem assembleLine_fwdn {n : Nat} (hn : n ≤ 31) : assembleLine (.cmd (.fwdn (some n))) =
    some [.wrCmd (BitVec.ofNat 32 (3 ||| n <<< 8))] :=
  assembleLine_of_wellFormed (decide_eq_true hn)

theorem assembleLine_invn {n : Nat} (hn : n ≤ 31) : assembleLine (.cmd (.invn (some n))) =
    some [.wrCmd (BitVec.ofNat 32 (4 ||| n <<< 8))] :=
  assembleLine_of_wellFormed (decide_eq_true hn)

/-- Settles O7: a count passes the check exactly up to 31, and the word it assembles to is the row of
R71 with that count. -/
theorem assemblerEncodesCommands : Obligations.AssemblerEncodesCommands := by
  refine ⟨rfl, rfl, rfl, fun n hn => ⟨assembleLine_fwdn hn, assembleLine_invn hn, ?_, ?_⟩,
    fun n hn => ?_, rfl, rfl⟩
  · rw [show BitVec.ofNat 32 (3 ||| n <<< 8) = _ from ofNat_eq_cmdWord 3 hn]
    exact (CommandWord.fwdn _).decode_eq
  · rw [show BitVec.ofNat 32 (4 ||| n <<< 8) = _ from ofNat_eq_cmdWord 4 hn]
    exact (CommandWord.invn _).decode_eq
  · have hcheck : decide (n ≤ 31) = false := decide_eq_false (Nat.not_le.2 hn)
    exact ⟨assembleLine_of_not_wellFormed hcheck, assembleLine_of_not_wellFormed hcheck⟩

/-! ### The examples (R80) -/

/-- Settles O5: the sixteen words evaluated through the decoder. -/
theorem encodingExamplesDecode : Obligations.EncodingExamplesDecode :=
  ⟨rfl, rfl, rfl, rfl, rfl, rfl, rfl, rfl, rfl, rfl, rfl, rfl, rfl, rfl, rfl, rfl⟩

end Sys2Proof.Proofs
end

section
/-! PROOFS. The register words (40_register_access.md R100 to R112): what their reads answer, what
their writes store, and the busy lock. -/

namespace Sys2Proof.Proofs

open Sys2Proof.Machine Sys2Proof.Claims

/-! ### Reads -/

/-- The sixteen words of the window, in index order (10_state.md R21). -/
def windowWords : List Reg :=
  [.id, .ctrl, .status, .cmd, .width, .height, .aw, .ah, .pixX, .pixY, .pixData, .pixGray,
    .capacity, .w13, .w14, .w15]

/-- The read of a word of the window is an answer to the host and nothing else (R100). -/
theorem exec_readOf (r : Reg) (s : State) : ∃ w, exec (readOf r) s = .next (answer w s) := by
  cases r <;> exact ⟨_, rfl⟩

/-- Settles O19: the sixteen instructions are the reads of the sixteen words. -/
theorem readsChangeNothing : Obligations.ReadsChangeNothing := by
  intro s i hi
  obtain ⟨r, _, rfl⟩ : ∃ r ∈ windowWords, readOf r = i := List.mem_map.1 hi
  exact exec_readOf r s

/-- CTRL reads IRQ_EN in bit 0 and zeros above (R102). -/
theorem setWidth_ofBool (b : Bool) : (BitVec.ofBool b).setWidth 32 = if b = true then 1 else 0 := by
  cases b <;> rfl

/-! ### STATUS (R103, R104) -/

/-- The one-bit fields of STATUS below IRQ, and the reserved bit 3 (10_state.md R23). -/
theorem statusWord_bits (s : State) :
    (statusWord s).getLsbD 0 = s.busy ∧ (statusWord s).getLsbD 1 = s.done ∧
      (statusWord s).getLsbD 2 = s.err ∧ (statusWord s).getLsbD 3 = false ∧
      (statusWord s).getLsbD 8 = s.coordOk ∧ (statusWord s).getLsbD 9 = s.geomOk := by
  simp only [statusWord, BitVec.getLsbD_append]
  simp

/-- Bits 7:4 of STATUS are ERR_CODE. -/
theorem statusWord_errCode (s : State) : (statusWord s).extractLsb' 4 4 = s.errCode := by
  apply BitVec.eq_of_getLsbD_eq
  intro i hi
  simp only [statusWord, BitVec.getLsbD_extractLsb', BitVec.getLsbD_append]
  simp [hi, show ¬4 + i < 1 by omega]

/-- Bits 31:11 of STATUS are reserved and read 0. -/
theorem statusWord_reserved (s : State) : (statusWord s).extractLsb' 11 21 = 0#21 := by
  apply BitVec.eq_of_getLsbD_eq
  intro i hi
  simp only [statusWord, BitVec.getLsbD_extractLsb', BitVec.getLsbD_append]
  simp [show ¬7 + i < 4 by omega, show ¬7 + i - 4 = 0 by omega, show ¬7 + i - 4 - 1 = 0 by omega,
    show ¬7 + i - 4 - 1 - 1 = 0 by omega]

/-- Settles O11: field by field of the word, the computed ones by what COORD_OK and GEOM_OK say of
the registers. -/
theorem statusReadsItsFields : Obligations.StatusReadsItsFields := by
  refine ⟨decode_readRow 2, fun s => ⟨statusWord s, rfl, ?_⟩, ?_⟩
  · obtain ⟨hbusy, hdone, herr, hzero, hcoord, hgeom⟩ := statusWord_bits s
    refine ⟨hbusy, hdone, herr, hzero, statusWord_errCode s, ?_, ?_, statusWord_bit10 s,
      statusWord_reserved s⟩
    · rw [hcoord]; exact coordOk_iff_inImage s
    · rw [hgeom]; exact geomOk_iff s
  · calc exec .rdStatus State.reset = .next (answer (statusWord State.reset) State.reset) := rfl
      _ = .next (answer 0x00000200 State.reset) := by rw [reset_statusWord]

/-- The write-1-to-clear bits of STATUS (R104). -/
theorem acknowledge_eq (d : Word) (s : State) : acknowledge d s =
    { s with
      done := if d.getLsbD 1 = true then false else s.done
      err := if d.getLsbD 2 = true then false else s.err
      errCode := if d.getLsbD 2 = true then 0 else s.errCode } := by
  have hclear (flag bit : Bool) : (flag && !bit) = if bit = true then false else flag := by
    cases bit <;> simp
  simp only [acknowledge, hclear]

/-- Settles O12: a write of STATUS is the acknowledgement. -/
theorem statusWriteClearsDoneAndErr : Obligations.StatusWriteClearsDoneAndErr := fun s d =>
  ⟨decode_writeRow 2 d, congrArg Host.Outcome.next (acknowledge_eq d s)⟩

/-! ### ID, CTRL, CMD, CAPACITY and the reserved words -/

/-- Settles O9: an answer of the constant, and a write that leaves the state (R101). -/
theorem idReadsItsConstantAndIgnoresWrites : Obligations.IdReadsItsConstantAndIgnoresWrites :=
  fun _ d => ⟨decode_readRow 0 d, decode_writeRow 0 d, rfl, rfl⟩

/-- Settles O10: the word of CTRL is IRQ_EN, extended. -/
theorem ctrlKeepsBitZero : Obligations.CtrlKeepsBitZero := fun s d =>
  ⟨decode_readRow 1 d, decode_writeRow 1 d,
    congrArg (fun w => Host.Outcome.next (answer w s)) (setWidth_ofBool s.irqEn), rfl⟩

/-- Settles O13: the answer is the constant 0, whatever the state (R105). -/
theorem cmdReadsZero : Obligations.CmdReadsZero := fun _ d => ⟨decode_readRow 3 d, rfl⟩

/-- Settles O16: the read answers the build's capacity, the write leaves the state (R109). -/
theorem capacityReadsAndIgnoresWrites : Obligations.CapacityReadsAndIgnoresWrites :=
  fun _ d => ⟨decode_readRow 12 d, decode_writeRow 12 d, rfl, rfl⟩

/-- Settles O17: the three words alike, index by index (R110). -/
theorem reservedWordsReadZeroAndIgnoreWrites : Obligations.ReservedWordsReadZeroAndIgnoreWrites :=
  fun _ d => ⟨decode_readRow 13 d, decode_readRow 14 d, decode_readRow 15 d, decode_writeRow 13 d,
    decode_writeRow 14 d, decode_writeRow 15 d, rfl, rfl, rfl, rfl, rfl, rfl⟩

/-! ### The busy lock (R112) -/

/-- The words whose writes are locked while busy, indexes 3 to 11 (R112). -/
def lockedWords : List Reg :=
  [.cmd, .width, .height, .aw, .ah, .pixX, .pixY, .pixData, .pixGray]

/-- A locked write while busy raises code 4 and does nothing else. -/
theorem lockedWrite_rejected {s : State} (write : State → State) (hbusy : s.pending ≠ none) :
    lockedWrite write s = rejected 4 s :=
  lockedWrite_busy write (Option.isSome_iff_ne_none.2 hbusy)

/-- The write of a locked word goes through the lock. -/
theorem exec_writeOf_locked {r : Reg} (hr : r ∈ lockedWords) (d : Word) :
    ∃ write, ∀ s, exec (writeOf r d) s = .next (lockedWrite write s) := by
  cases r with
  | cmd | width | height | aw | ah | pixX | pixY | pixData | pixGray => exact ⟨_, fun _ => rfl⟩
  | id | ctrl | status | capacity | w13 | w14 | w15 => simp [lockedWords] at hr

/-- The write of a locked word while busy is rejected with BUSY. -/
theorem exec_writeOf_busy {r : Reg} (hr : r ∈ lockedWords) (d : Word) {s : State}
    (hbusy : s.pending ≠ none) : exec (writeOf r d) s = .next (rejected 4 s) := by
  obtain ⟨write, hwrite⟩ := exec_writeOf_locked hr d
  rw [hwrite, lockedWrite_rejected write hbusy]

/-- Settles O18: the nine locked writes are rejected by the lock, the others never reach it. -/
theorem lockedWritesWhileBusyAreRejected : Obligations.LockedWritesWhileBusyAreRejected := by
  intro s d hbusy
  refine ⟨fun i hi => ?_, fun i hi => ?_, rfl, congrArg Host.Outcome.next (acknowledge_eq d s)⟩
  · obtain ⟨r, hr, rfl⟩ : ∃ r ∈ lockedWords, writeOf r d = i := List.mem_map.1 hi
    exact exec_writeOf_busy hr d hbusy
  · simp only [List.mem_cons, List.not_mem_nil, or_false] at hi
    obtain rfl | rfl | rfl | rfl | rfl := hi <;> rfl

/-! ### The configuration registers (R107, R108) -/

/-- Settles O14: each read answers the live register, which the command in progress has copied. -/
theorem configurationReadsReturnTheRegister : Obligations.ConfigurationReadsReturnTheRegister := by
  refine ⟨fun d => ?_, fun s => ⟨rfl, rfl, rfl, rfl, rfl, rfl⟩, fun s p hinv hpending => ?_⟩
  · exact ⟨decode_readRow 4 d, decode_readRow 5 d, decode_readRow 6 d, decode_readRow 7 d,
      decode_readRow 8 d, decode_readRow 9 d⟩
  · obtain ⟨hw, hh, haw, hah⟩ := hinv.copies p hpending
    rw [hw, hh, haw, hah]
    exact ⟨rfl, rfl, rfl, rfl⟩

/-- Settles O15: the six registers are locked words, and while idle the lock lets their write
happen. -/
theorem configurationWritesStoreAllBits : Obligations.ConfigurationWritesStoreAllBits := by
  refine ⟨fun d => ?_, fun s d hidle => ?_, fun s d hbusy => ?_⟩
  · exact ⟨decode_writeRow 4 d, decode_writeRow 5 d, decode_writeRow 6 d, decode_writeRow 7 d,
      decode_writeRow 8 d, decode_writeRow 9 d⟩
  · have hstore (write : State → State) :
        Host.Outcome.next (φ := Fault) (ρ := Refusal) (lockedWrite write s) = .next (write s) :=
      congrArg _ (lockedWrite_idle write hidle)
    exact ⟨hstore _, hstore _, hstore _, hstore _, hstore _, hstore _⟩
  · have hreject (r : Reg) (hr : r ∈ lockedWords) := exec_writeOf_busy hr d hbusy
    exact ⟨hreject .width (by decide), hreject .height (by decide), hreject .aw (by decide),
      hreject .ah (by decide), hreject .pixX (by decide), hreject .pixY (by decide)⟩

end Sys2Proof.Proofs
end

section
/-! PROOFS. The pixel port (40_register_access.md R114 to R118): inside the image while idle, and
what it answers or rejects otherwise. -/

namespace Sys2Proof.Proofs

open Sys2Proof.Machine Sys2Proof.Claims

/-! ### Reads -/

/-- A port read while busy or out of bounds answers 0 (R111, R116). -/
theorem portRead_zero {s : State} (value : State → Word) (h : s.pending ≠ none ∨ ¬inImage s) :
    portRead value s = 0 := by
  rcases portRead_cases value s with ⟨hidle, hcoord, _⟩ | ⟨_, hzero⟩
  · have hpending : s.pending = none := Option.not_isSome_iff_eq_none.1 (Bool.eq_false_iff.1 hidle)
    exact absurd ((coordOk_iff_inImage s).1 hcoord) (h.resolve_left (not_not_intro hpending))
  · exact hzero

theorem exec_rdPixData_zero {s : State} (h : s.pending ≠ none ∨ ¬inImage s) :
    exec .rdPixData s = .next { s with rdata := some 0 } :=
  congrArg (fun w => Host.Outcome.next (answer w s)) (portRead_zero _ h)

theorem exec_rdPixGray_zero {s : State} (h : s.pending ≠ none ∨ ¬inImage s) :
    exec .rdPixGray s = .next { s with rdata := some 0 } :=
  congrArg (fun w => Host.Outcome.next (answer w s)) (portRead_zero _ h)

/-- Settles O20: inside the image the answer is the packed pixel, whose layout is R56's. -/
theorem pixDataReadsThePackedPixel : Obligations.PixDataReadsThePackedPixel :=
  ⟨decode_readRow 10, fun _ hbusy => exec_rdPixData_zero (.inl hbusy),
    fun _ _ hout => exec_rdPixData_zero (.inr hout),
    fun s hidle himage => exec_rdPixData_inside hidle ((coordOk_iff_inImage s).2 himage)⟩

/-- Settles O21: inside the image the answer is channel 0, extended by 24 zeros. -/
theorem pixGrayReadsChannelZero : Obligations.PixGrayReadsChannelZero := by
  refine ⟨decode_readRow 11, fun s => exec_rdPixGray_zero, fun s hidle himage => ?_⟩
  rw [exec_rdPixGray_inside hidle ((coordOk_iff_inImage s).2 himage),
    BitVec.setWidth_eq_append (show 8 ≤ 32 by decide)]
  rfl

/-! ### Writes -/

/-- A port write out of bounds while idle raises code 3 and does nothing else (R116). -/
theorem portWrite_outside {s : State} (write : State → State) (hidle : s.pending = none)
    (hout : ¬inImage s) : lockedWrite (boundedWrite write) s = rejected 3 s := by
  rw [lockedWrite_idle _ hidle]
  rcases boundedWrite_cases write s with ⟨hcoord, _⟩ | ⟨_, hraise⟩
  · exact absurd ((coordOk_iff_inImage s).1 hcoord) hout
  · exact hraise

theorem exec_wrPixData_outside {s : State} (d : Word) (hidle : s.pending = none)
    (hout : ¬inImage s) : exec (.wrPixData d) s = .next (rejected 3 s) :=
  congrArg Host.Outcome.next (portWrite_outside _ hidle hout)

theorem exec_wrPixGray_outside {s : State} (d : Word) (hidle : s.pending = none)
    (hout : ¬inImage s) : exec (.wrPixGray d) s = .next (rejected 3 s) :=
  congrArg Host.Outcome.next (portWrite_outside _ hidle hout)

/-- wr PIX_GRAY while idle and inside the image writes bits 7:0 of its word three times (R117). -/
theorem exec_wrPixGray_inside {s : State} (d : Word) (hidle : s.pending = none)
    (hcoord : s.coordOk = true) :
    exec (.wrPixGray d) s = .next (writePixel (lane d 0) (lane d 0) (lane d 0) s) :=
  congrArg Host.Outcome.next ((lockedWrite_idle _ hidle).trans (boundedWrite_inside _ hcoord))

/-- A write of the port's pixel leaves every byte but the pixel's three channels (R115). -/
theorem pbByte_writePixel_other (r g b : Byte) {s : State} {a : Nat}
    (ha : ∀ c, a ≠ portAddr s c) : pbByte (writePixel r g b s).pb a = pbByte s.pb a := by
  rw [writePixel_pb, pbByte_store, pbByte_store, pbByte_store, if_neg (ha 2), if_neg (ha 1),
    if_neg (ha 0)]

/-- Settles O22: the lock, then the bounds check, then the three lanes at the port's pixel. -/
theorem pixDataWritesThePixel : Obligations.PixDataWritesThePixel := by
  refine ⟨decode_writeRow 10, fun s d => exec_writeOf_busy (r := .pixData) (by decide) d,
    fun s => exec_wrPixData_outside, fun s d hidle himage => ?_⟩
  obtain ⟨hr, hg, hb⟩ := portByte_writePixel (lane d 0) (lane d 1) (lane d 2) s
  exact ⟨_, exec_wrPixData_inside d hidle ((coordOk_iff_inImage s).2 himage), hr, hg, hb,
    fun _ => pbByte_writePixel_other _ _ _⟩

/-- Settles O23: as O22, with lane 0 in every channel. -/
theorem pixGrayWritesAllChannels : Obligations.PixGrayWritesAllChannels := by
  refine ⟨decode_writeRow 11, fun s d => exec_writeOf_busy (r := .pixGray) (by decide) d,
    fun s => exec_wrPixGray_outside, fun s d hidle himage => ?_⟩
  obtain ⟨hr, hg, hb⟩ := portByte_writePixel (lane d 0) (lane d 0) (lane d 0) s
  refine ⟨_, exec_wrPixGray_inside d hidle ((coordOk_iff_inImage s).2 himage), fun c => ?_,
    fun _ => pbByte_writePixel_other _ _ _⟩
  match c with
  | 0 => exact hr
  | 1 => exact hg
  | 2 => exact hb

/-- Each way to be out of bounds that R116 lists puts the coordinate outside the image. -/
theorem not_inImage_of_outside {s : State}
    (h : s.width.toNat ≤ s.pixX.toNat ∨ s.height.toNat ≤ s.pixY.toNat ∨
      s.capacity.toNat < s.width.toNat * s.height.toNat ∨ s.width = 0 ∨ s.height = 0) :
    ¬inImage s := by
  rintro ⟨hgeom, hx, hy⟩
  obtain h | h | h | h | h := h
  · exact Nat.not_lt.2 h hx
  · exact Nat.not_lt.2 h hy
  · exact Nat.not_lt.2 hgeom h
  · exact Nat.not_lt_zero _ (h ▸ hx)
  · exact Nat.not_lt_zero _ (h ▸ hy)

/-- Settles O24: every listed case is outside the image. -/
theorem outOfBoundsPortAccess : Obligations.OutOfBoundsPortAccess := by
  intro s hidle h
  have hout := not_inImage_of_outside h
  exact ⟨fun d => ⟨exec_wrPixData_outside d hidle hout, exec_wrPixGray_outside d hidle hout⟩,
    exec_rdPixData_zero (.inr hout), exec_rdPixGray_zero (.inr hout)⟩

end Sys2Proof.Proofs
end

section
/-! PROOFS. The CMD register runs the command its word holds (40_register_access.md R106), and in a
state that meets the invariant no step stops (R100, 42_commands.md R179). -/

namespace Sys2Proof.Proofs

open Sys2Proof.Machine

/-! ### A command's word written to CMD -/

/-- NOP's word, offered, completes at once (42_commands.md R173). -/
theorem offer_cmdWord_nop : offer (cmdWord 0 0) = completeNow := by
  have hlegal := CommandWord.nop.legal
  funext s
  simp only [offer, hlegal, cmdOp_cmdWord]
  rfl

/-- A legal word of a level command, offered, is that command offered with its count (R170). -/
theorem offer_cmdWord_level {op : BitVec 8} {n : BitVec 5} {level : LevelOp}
    (hlegal : illegalCommand (cmdWord op n) = false) (hop : levelOpOf op = some level) :
    offer (cmdWord op n) = offerLevel level n := by
  funext s
  simp [offer, hlegal, cmdOp_cmdWord, cmdLevels_cmdWord, hop]

/-- The write of a command's word to CMD is the command: both put the same offer behind the lock. -/
theorem CommandWord.exec_wrCmd {w : Word} {i : Instr} (h : CommandWord w i) (s : State) :
    exec (.wrCmd w) s = exec i s := by
  have hlegal := h.legal
  cases h with
  | nop => exact congrArg (fun f => Host.Outcome.next (lockedWrite f s)) offer_cmdWord_nop
  | fwd1 | inv1 | fwdn | invn =>
    exact congrArg (fun f => Host.Outcome.next (lockedWrite f s)) (offer_cmdWord_level hlegal rfl)

/-- Settles O28: a word that decodes is a row of R71. -/
theorem cmdWriteRunsTheCommand : Obligations.CmdWriteRunsTheCommand := fun s _ _ h =>
  (commandWord_of_decode h).exec_wrCmd s

/-! ### No step stops -/

/-- Every instruction has a next state in every state (60_exceptions.md R207). -/
theorem exec_next (i : Instr) (s : State) : ∃ t, exec i s = .next t := by
  cases i <;> exact ⟨_, rfl⟩

/-- The engine's turn goes on in a state that meets the invariant: what is pending fits (R140). -/
theorem engineTurn_next {s : State} (h : s.Inv) : ∃ t, engineTurn s = .next t := by
  rcases engineTurn_cases s with ⟨_, e⟩ | ⟨p, _, _, e⟩ | ⟨p, hpending, hmisfit, _⟩
  · exact ⟨_, e⟩
  · exact ⟨_, e⟩
  · rw [h.fits p hpending] at hmisfit
    exact nomatch hmisfit

/-- Settles O59: by the event at the head of the agenda, whose removal the invariant does not see. -/
theorem invariantStatesNeverStop : Obligations.InvariantStatesNeverStop := by
  intro s h
  rcases step_cases s with ⟨_, e⟩ | ⟨tr, rest, _, e⟩ | ⟨rest, _, e⟩ | ⟨rest, _, e⟩ <;> rw [e]
  · exact engineTurn_next h
  · exact exec_next _ _
  · exact engineTurn_next (inv_with_unread h _ _ _ _ _)
  · exact ⟨_, rfl⟩

end Sys2Proof.Proofs
end

section
/-! PROOFS. The pair functions of a level (41_haar_level.md R141, R146): their closed spelling, their
range (R145) and their round trip (R156). -/

namespace Sys2Proof.Proofs

open Sys2Proof.Machine Sys2Proof.Claims

/-! ### The closed spelling -/

theorem fwdApprox_eq_avg (p q : Int) : fwdApprox p q = avg p q := tdiv2_eq_tdiv _

theorem fwdDetail_eq_det (p q : Int) : fwdDetail p q = det p q := by
  rw [fwdDetail, bias, tdiv2_eq_tdiv, det]

theorem clampByte_eq_clamp (v : Int) : clampByte v = clamp v := by
  unfold clampByte clamp
  split
  · omega
  · split <;> omega

theorem invEven_eq_evn (p d : Int) : invEven p d = evn p d := clampByte_eq_clamp _

theorem invOdd_eq_odd (p d : Int) : invOdd p d = odd p d := clampByte_eq_clamp _

/-- The bias of a detail goes out again. -/
theorem unbias_fwdDetail (p q : Int) : unbias (fwdDetail p q) = tdiv2 (p - q) :=
  Int.add_sub_cancel _ _

/-! ### Rounding toward zero -/

/-- Rounding toward zero (00_scope.md R9) is exact on even numbers and drops 1 from the magnitude of
odd ones. -/
theorem two_mul_tdiv2_cases (v : Int) :
    (v % 2 = 0 ∧ 2 * tdiv2 v = v) ∨ (v % 2 = 1 ∧ 0 < v ∧ 2 * tdiv2 v = v - 1) ∨
      (v % 2 = 1 ∧ v < 0 ∧ 2 * tdiv2 v = v + 1) := by
  unfold tdiv2
  split <;> omega

/-! ### Ranges (R145) -/

theorem clampByte_of_range {v : Int} (h0 : 0 ≤ v) (h1 : v ≤ 255) : clampByte v = v := by
  rw [clampByte, if_neg (by omega), if_neg (by omega)]

/-- A clamped value is a sample, so that clamping it again changes nothing. -/
theorem clampByte_clampByte (v : Int) : clampByte (clampByte v) = clampByte v := by
  rw [← clampedByte_toNat v, ← clampedByte_toNat, clampedByte_byte]

theorem fwdApprox_range (p q : Byte) :
    0 ≤ fwdApprox (p.toNat : Int) (q.toNat : Int) ∧ fwdApprox (p.toNat : Int) (q.toNat : Int) ≤ 255 := by
  have hp := p.isLt
  have hq := q.isLt
  have hsum := two_mul_tdiv2_cases ((p.toNat : Int) + (q.toNat : Int))
  unfold fwdApprox
  omega

/-- Half a difference of two samples, rounded toward zero. -/
theorem tdiv2_diff_range (p q : Byte) :
    -127 ≤ tdiv2 ((p.toNat : Int) - (q.toNat : Int)) ∧
      tdiv2 ((p.toNat : Int) - (q.toNat : Int)) ≤ 127 := by
  have hp := p.isLt
  have hq := q.isLt
  have hdiff := two_mul_tdiv2_cases ((p.toNat : Int) - (q.toNat : Int))
  omega

theorem fwdDetail_range (p q : Byte) :
    1 ≤ fwdDetail (p.toNat : Int) (q.toNat : Int) ∧ fwdDetail (p.toNat : Int) (q.toNat : Int) ≤ 255 := by
  have hdiff := tdiv2_diff_range p q
  unfold fwdDetail bias
  omega

theorem clampByte_fwdApprox (p q : Byte) :
    clampByte (fwdApprox (p.toNat : Int) (q.toNat : Int)) =
      fwdApprox (p.toNat : Int) (q.toNat : Int) :=
  clampByte_of_range (fwdApprox_range p q).1 (fwdApprox_range p q).2

theorem clampByte_fwdDetail (p q : Byte) :
    clampByte (fwdDetail (p.toNat : Int) (q.toNat : Int)) =
      fwdDetail (p.toNat : Int) (q.toNat : Int) :=
  clampByte_of_range (Int.le_trans (by decide) (fwdDetail_range p q).1) (fwdDetail_range p q).2

/-- Settles O39: the ranges of FA and FD give the clamps; the sums and differences are those of two
samples. -/
theorem forwardCoefficientRange : Obligations.ForwardCoefficientRange := by
  intro p q sum diff a d
  have hp := p.isLt
  have hq := q.isLt
  obtain ⟨ha0, ha1⟩ := fwdApprox_range p q
  obtain ⟨hd0, hd1⟩ := fwdDetail_range p q
  have hhalf := tdiv2_diff_range p q
  have hunbias : unbias d = diff.tdiv 2 := (unbias_fwdDetail _ _).trans (tdiv2_eq_tdiv _)
  rw [tdiv2_eq_tdiv] at hhalf
  refine ⟨fwdApprox_eq_avg _ _, fwdDetail_eq_det _ _, ha0, ha1, hd0, hd1, clampByte_fwdApprox p q,
    clampByte_fwdDetail p q, hunbias, ?_, ?_, ?_, hhalf.1, hhalf.2, ?_, ?_, ?_, ?_⟩ <;>
    simp only [sum, diff, unbias] <;> omega

/-! ### The round trip of one pair (R156) -/

/-- What the inverse of a forward pair clamps: the halves added. -/
theorem invEven_of_forward (p q : Int) :
    invEven (fwdApprox p q) (fwdDetail p q) = clampByte (tdiv2 (p + q) + tdiv2 (p - q)) := by
  rw [invEven, unbias_fwdDetail, fwdApprox]

/-- And subtracted. -/
theorem invOdd_of_forward (p q : Int) :
    invOdd (fwdApprox p q) (fwdDetail p q) = clampByte (tdiv2 (p + q) - tdiv2 (p - q)) := by
  rw [invOdd, unbias_fwdDetail, fwdApprox]

/-- Settles O40: the sum and the difference have one parity. When it is even both halves are exact;
when it is odd the half sum loses 1/2 and the half difference 1/2 of its magnitude. -/
theorem pairRoundTrip : Obligations.PairRoundTrip := by
  intro p q a d
  have hp := p.isLt
  have hq := q.isLt
  have hsum := two_mul_tdiv2_cases ((p.toNat : Int) + (q.toNat : Int))
  have hdiff := two_mul_tdiv2_cases ((p.toNat : Int) - (q.toNat : Int))
  simp only [a, d, invEven_of_forward, invOdd_of_forward]
  refine ⟨fun heven => ⟨?_, ?_⟩, fun hodd hlt => ⟨?_, ?_⟩, fun hodd hlt => ⟨?_, ?_⟩⟩ <;>
    rw [clampByte_of_range] <;> omega

end Sys2Proof.Proofs
end

section
/-! PROOFS. What a pass leaves (41_haar_level.md R142, R143, R147, R148): the byte of each of its
writes, whatever their order (R151), and every byte outside the even sub-rectangle (R150). -/

namespace Sys2Proof.Proofs

open Sys2Proof.Machine

/-! ### Writes that agree -/

/-- No two of the writes to one byte differ. -/
def Agree (w : Nat) (qs : List SampleWrite) : Prop :=
  ∀ q ∈ qs, ∀ r ∈ qs, sampleAddr w r.x r.y r.c = sampleAddr w q.x q.y q.c → r.v = q.v

theorem fwdRowWrites_agree {w aw : Nat} (ah : Nat) (m : Memory) (hw : aw ≤ w) :
    Agree w (fwdRowWrites w aw ah m) := fun _ hq _ hr => fwdRowWrites_value hw hq hr

theorem fwdColWrites_agree {w aw : Nat} (ah : Nat) (m : Memory) (hw : aw ≤ w) :
    Agree w (fwdColWrites w aw ah m) := fun _ hq _ hr => fwdColWrites_value hw hq hr

theorem invRowWrites_agree {w aw : Nat} (ah : Nat) (m : Memory) (hw : aw ≤ w) :
    Agree w (invRowWrites w aw ah m) := fun _ hq _ hr => invRowWrites_value hw hq hr

theorem invColWrites_agree {w aw : Nat} (ah : Nat) (m : Memory) (hw : aw ≤ w) :
    Agree w (invColWrites w aw ah m) := fun _ hq _ hr => invColWrites_value hw hq hr

/-- Writes that agree leave the same bytes in any order: the value of a write to the byte, or what was
there when no write is to it. -/
theorem written_writeSamples_perm {w : Nat} {qs rs : List SampleWrite} (hrs : Agree w rs)
    (h : qs.Perm rs) (m : Memory) (a : Nat) :
    (writeSamples w m qs).written a = (writeSamples w m rs).written a := by
  by_cases hhit : ∃ q ∈ rs, a = sampleAddr w q.x q.y q.c
  · obtain ⟨q, hq, rfl⟩ := hhit
    rw [written_writeSamples_of_mem hq (hrs q hq), written_writeSamples_of_mem (h.mem_iff.2 hq)
      fun r hr => hrs q hq r (h.mem_iff.1 hr)]
  · have hmiss : ∀ q ∈ rs, a ≠ sampleAddr w q.x q.y q.c := fun q hq he => hhit ⟨q, hq, he⟩
    rw [written_writeSamples_other hmiss,
      written_writeSamples_other fun q hq => hmiss q (h.mem_iff.1 hq)]

/-- Settles O42: the writes of each pass agree. -/
theorem passOrderDoesNotMatter : Obligations.PassOrderDoesNotMatter := fun _ _ ah a src dst _ hw =>
  ⟨fun h => written_writeSamples_perm (fwdRowWrites_agree ah src hw) h dst a,
   fun h => written_writeSamples_perm (fwdColWrites_agree ah src hw) h dst a,
   fun h => written_writeSamples_perm (invRowWrites_agree ah src hw) h dst a,
   fun h => written_writeSamples_perm (invColWrites_agree ah src hw) h dst a⟩

/-- PixRead after writes that agree, at the coordinate of one of them. -/
theorem pixRead_writeSamples_of_mem {w : Nat} {m : Memory} {qs : List SampleWrite}
    {q : SampleWrite} (hqs : Agree w qs) (hq : q ∈ qs) :
    pixRead w (writeSamples w m qs) q.x q.y q.c = clampByte q.v := by
  rw [pixRead, pbByte, written_writeSamples_of_mem hq (hqs q hq), Option.getD_some,
    clampedByte_toNat]

/-- The same for ScrRead. -/
theorem scrRead_writeSamples_of_mem {w : Nat} {m : Memory} {qs : List SampleWrite}
    {q : SampleWrite} (hqs : Agree w qs) (hq : q ∈ qs) :
    scrRead w (writeSamples w m qs) q.x q.y q.c = clampByte q.v := by
  rw [scrRead, sbByte, written_writeSamples_of_mem hq (hqs q hq), Option.getD_some,
    clampedByte_toNat]

/-! ### The even sub-rectangle -/

/-- A column pass acts on the even sub-rectangle of its region. -/
theorem fwdColWrites_even (w aw ah : Nat) (m : Memory) :
    fwdColWrites w (2 * (aw / 2)) (2 * (ah / 2)) m = fwdColWrites w aw ah m := by
  simp only [fwdColWrites, Nat.mul_div_cancel_left _ Nat.two_pos]

theorem invColWrites_even (w aw ah : Nat) (m : Memory) :
    invColWrites w (2 * (aw / 2)) (2 * (ah / 2)) m = invColWrites w aw ah m := by
  simp only [invColWrites, Nat.mul_div_cancel_left _ Nat.two_pos]

/-- A key that is no byte of the even sub-rectangle of a region. -/
def OutsideEven (w aw ah a : Nat) : Prop :=
  ∀ x y c, x < 2 * (aw / 2) → y < 2 * (ah / 2) → a ≠ sampleAddr w x y c

/-- A byte outside the even sub-rectangle keeps its value in a forward level. -/
theorem fwdLevel_outside {w aw ah a : Nat} (b : Buffers) (h : OutsideEven w aw ah a) :
    pbByte (fwdLevel w aw ah b).pb a = pbByte b.pb a := by
  refine pbByte_writeSamples_other fun q hq => ?_
  rw [← fwdColWrites_even] at hq
  obtain ⟨hx, hy⟩ := fwdColWrites_inRegion hq
  exact h _ _ _ hx hy

/-- The same in an inverse level. -/
theorem invLevel_outside {w aw ah a : Nat} (b : Buffers) (h : OutsideEven w aw ah a) :
    pbByte (invLevel w aw ah b).pb a = pbByte b.pb a := by
  refine pbByte_writeSamples_other fun q hq => ?_
  rw [← invColWrites_even] at hq
  obtain ⟨hx, hy⟩ := invColWrites_inRegion hq
  exact h _ _ _ hx hy

/-- Settles O36: only the column pass writes PB, and only in the even sub-rectangle. -/
theorem levelsTouchOnlyTheEvenRectangle : Obligations.LevelsTouchOnlyTheEvenRectangle :=
  fun _ _ _ _ b h => ⟨fwdLevel_outside b h, invLevel_outside b h⟩

end Sys2Proof.Proofs
end

section
/-! PROOFS. One level in closed form (41_haar_level.md R155): the row pass gives SB, and the column
pass computes PB from it. -/

namespace Sys2Proof.Proofs

open Sys2Proof.Machine Sys2Proof.Claims

/-! ### The passes at one position -/

/-- SB after a forward row pass (R142). -/
theorem scrRead_fwdRow {w aw ah x y : Nat} (sb pb : Memory) (c : Channel) (hw : aw ≤ w)
    (hx : x < aw / 2) (hy : y < ah) :
    scrRead w (writeSamples w sb (fwdRowWrites w aw ah pb)) x y c =
        avg (px w pb (2 * x) y c) (px w pb (2 * x + 1) y c) ∧
      scrRead w (writeSamples w sb (fwdRowWrites w aw ah pb)) (x + aw / 2) y c =
        det (px w pb (2 * x) y c) (px w pb (2 * x + 1) y c) := by
  have hagree := fwdRowWrites_agree ah pb hw
  rw [← fwdApprox_eq_avg, ← fwdDetail_eq_det]
  constructor
  · exact (scrRead_writeSamples_of_mem hagree
      (mem_fwdRowWrites.2 ⟨y, hy, c, x, hx, .inl rfl⟩)).trans (clampByte_fwdApprox _ _)
  · exact (scrRead_writeSamples_of_mem hagree
      (mem_fwdRowWrites.2 ⟨y, hy, c, x, hx, .inr rfl⟩)).trans (clampByte_fwdDetail _ _)

/-- PB after a forward column pass (R143). -/
theorem px_fwdCol {w aw ah x y : Nat} (pb sb : Memory) (c : Channel) (hw : aw ≤ w)
    (hx : x < 2 * (aw / 2)) (hy : y < ah / 2) :
    px w (writeSamples w pb (fwdColWrites w aw ah sb)) x y c =
        avg (scrRead w sb x (2 * y) c) (scrRead w sb x (2 * y + 1) c) ∧
      px w (writeSamples w pb (fwdColWrites w aw ah sb)) x (y + ah / 2) c =
        det (scrRead w sb x (2 * y) c) (scrRead w sb x (2 * y + 1) c) := by
  have hagree := fwdColWrites_agree ah sb hw
  rw [← fwdApprox_eq_avg, ← fwdDetail_eq_det]
  constructor
  · exact (pixRead_writeSamples_of_mem hagree
      (mem_fwdColWrites.2 ⟨x, hx, c, y, hy, .inl rfl⟩)).trans (clampByte_fwdApprox _ _)
  · exact (pixRead_writeSamples_of_mem hagree
      (mem_fwdColWrites.2 ⟨x, hx, c, y, hy, .inr rfl⟩)).trans (clampByte_fwdDetail _ _)

/-- SB after an inverse row pass (R147). -/
theorem scrRead_invRow {w aw ah x y : Nat} (sb pb : Memory) (c : Channel) (hw : aw ≤ w)
    (hx : x < aw / 2) (hy : y < ah) :
    scrRead w (writeSamples w sb (invRowWrites w aw ah pb)) (2 * x) y c =
        evn (px w pb x y c) (px w pb (x + aw / 2) y c) ∧
      scrRead w (writeSamples w sb (invRowWrites w aw ah pb)) (2 * x + 1) y c =
        odd (px w pb x y c) (px w pb (x + aw / 2) y c) := by
  have hagree := invRowWrites_agree ah pb hw
  rw [← invEven_eq_evn, ← invOdd_eq_odd]
  constructor
  · exact (scrRead_writeSamples_of_mem hagree
      (mem_invRowWrites.2 ⟨y, hy, c, x, hx, .inl rfl⟩)).trans (clampByte_clampByte _)
  · exact (scrRead_writeSamples_of_mem hagree
      (mem_invRowWrites.2 ⟨y, hy, c, x, hx, .inr rfl⟩)).trans (clampByte_clampByte _)

/-- PB after an inverse column pass (R148). -/
theorem px_invCol {w aw ah x y : Nat} (pb sb : Memory) (c : Channel) (hw : aw ≤ w)
    (hx : x < 2 * (aw / 2)) (hy : y < ah / 2) :
    px w (writeSamples w pb (invColWrites w aw ah sb)) x (2 * y) c =
        evn (scrRead w sb x y c) (scrRead w sb x (y + ah / 2) c) ∧
      px w (writeSamples w pb (invColWrites w aw ah sb)) x (2 * y + 1) c =
        odd (scrRead w sb x y c) (scrRead w sb x (y + ah / 2) c) := by
  have hagree := invColWrites_agree ah sb hw
  rw [← invEven_eq_evn, ← invOdd_eq_odd]
  constructor
  · exact (pixRead_writeSamples_of_mem hagree
      (mem_invColWrites.2 ⟨x, hx, c, y, hy, .inl rfl⟩)).trans (clampByte_clampByte _)
  · exact (pixRead_writeSamples_of_mem hagree
      (mem_invColWrites.2 ⟨x, hx, c, y, hy, .inr rfl⟩)).trans (clampByte_clampByte _)

/-! ### The levels -/

/-- Settles O34: the column pass at both columns of the block, the row pass at both its rows. -/
theorem forwardLevelClosedForm : Obligations.ForwardLevelClosedForm := by
  intro w aw ah i j ch b hw hi hj t x00 x10 x01 x11
  have hrow (y : Nat) (hy : y < ah) := scrRead_fwdRow b.sb b.pb ch hw hi hy
  have hcol (x : Nat) (hx : x < 2 * (aw / 2)) := px_fwdCol b.pb
    (writeSamples w b.sb (fwdRowWrites w aw ah b.pb)) ch hw hx hj
  obtain ⟨hL0, hH0⟩ := hrow (2 * j) (by omega)
  obtain ⟨hL1, hH1⟩ := hrow (2 * j + 1) (by omega)
  obtain ⟨hLL, hLH⟩ := hcol i (by omega)
  obtain ⟨hHL, hHH⟩ := hcol (i + aw / 2) (by omega)
  rw [hL0, hL1] at hLL hLH
  rw [hH0, hH1] at hHL hHH
  exact ⟨hLL, hHL, hLH, hHH⟩

/-- Settles O35: the column pass at both columns of the block, the row pass at the row of the
approximations and at the row of the details. -/
theorem inverseLevelClosedForm : Obligations.InverseLevelClosedForm := by
  intro w aw ah i j ch b hw hi hj t ll hl lh hh
  have hrow (y : Nat) (hy : y < ah) := scrRead_invRow b.sb b.pb ch hw hi hy
  have hcol (x : Nat) (hx : x < 2 * (aw / 2)) := px_invCol b.pb
    (writeSamples w b.sb (invRowWrites w aw ah b.pb)) ch hw hx hj
  obtain ⟨hEL, hOL⟩ := hrow j (by omega)
  obtain ⟨hEH, hOH⟩ := hrow (j + ah / 2) (by omega)
  obtain ⟨h00, h01⟩ := hcol (2 * i) (by omega)
  obtain ⟨h10, h11⟩ := hcol (2 * i + 1) (by omega)
  rw [hEL, hEH] at h00 h01
  rw [hOL, hOH] at h10 h11
  exact ⟨h00, h01, h10, h11⟩

end Sys2Proof.Proofs
end

section
/-! PROOFS. The column pass reads only bytes that the row pass has written (41_haar_level.md R152), so
SB from before a level never reaches PB; and a region acts as its even sub-rectangle (R154). -/

namespace Sys2Proof.Proofs

open Sys2Proof.Machine

/-! ### The two ways to halve a side -/

/-- A position of an even side is in its lower or in its upper half. -/
theorem exists_half_of_lt {x k : Nat} (hx : x < 2 * k) : ∃ i < k, x = i ∨ x = i + k := by
  by_cases h : x < k
  · exact ⟨x, h, .inl rfl⟩
  · exact ⟨x - k, by omega, .inr (by omega)⟩

/-- A position of an even side is the even or the odd one of a pair. -/
theorem exists_pair_of_lt {x k : Nat} (hx : x < 2 * k) : ∃ i < k, x = 2 * i ∨ x = 2 * i + 1 :=
  ⟨x / 2, by omega, by omega⟩

/-! ### What a row pass writes and a column pass reads -/

/-- The row pass writes every byte of the even columns of its region (R142). -/
theorem fwdRowWrites_covers {aw ah x y : Nat} (w : Nat) (m : Memory) (c : Channel)
    (hx : x < 2 * (aw / 2)) (hy : y < ah) : ∃ v, ⟨x, y, c, v⟩ ∈ fwdRowWrites w aw ah m := by
  obtain ⟨i, hi, rfl | rfl⟩ := exists_half_of_lt hx
  · exact ⟨_, mem_fwdRowWrites.2 ⟨y, hy, c, x, hi, .inl rfl⟩⟩
  · exact ⟨_, mem_fwdRowWrites.2 ⟨y, hy, c, i, hi, .inr rfl⟩⟩

theorem invRowWrites_covers {aw ah x y : Nat} (w : Nat) (m : Memory) (c : Channel)
    (hx : x < 2 * (aw / 2)) (hy : y < ah) : ∃ v, ⟨x, y, c, v⟩ ∈ invRowWrites w aw ah m := by
  obtain ⟨i, hi, rfl | rfl⟩ := exists_pair_of_lt hx
  · exact ⟨_, mem_invRowWrites.2 ⟨y, hy, c, i, hi, .inl rfl⟩⟩
  · exact ⟨_, mem_invRowWrites.2 ⟨y, hy, c, i, hi, .inr rfl⟩⟩

/-- SB reads alike in two buffers wherever the column pass of a region reads it. -/
def SameScratch (w aw ah : Nat) (sb sb' : Memory) : Prop :=
  ∀ x y c, x < 2 * (aw / 2) → y < 2 * (ah / 2) → scrRead w sb x y c = scrRead w sb' x y c

theorem fwdColWrites_congr {w aw ah : Nat} {sb sb' : Memory} (h : SameScratch w aw ah sb sb') :
    fwdColWrites w aw ah sb = fwdColWrites w aw ah sb' := by
  refine List.flatMap_congr fun x hx => List.flatMap_congr fun c _ =>
    List.flatMap_congr fun y hy => ?_
  rw [List.mem_range] at hx hy
  simp only [h x (2 * y) c hx (by omega), h x (2 * y + 1) c hx (by omega)]

theorem invColWrites_congr {w aw ah : Nat} {sb sb' : Memory} (h : SameScratch w aw ah sb sb') :
    invColWrites w aw ah sb = invColWrites w aw ah sb' := by
  refine List.flatMap_congr fun x hx => List.flatMap_congr fun c _ =>
    List.flatMap_congr fun y hy => ?_
  rw [List.mem_range] at hx hy
  simp only [h x y c hx (by omega), h x (y + ah / 2) c hx (by omega)]

/-! ### SB before a level (R152) -/

/-- A byte that one of the writes is to holds the same after them, whatever the buffer before. -/
theorem written_writeSamples_of_hit {w a : Nat} {qs : List SampleWrite}
    (h : ∃ q ∈ qs, a = sampleAddr w q.x q.y q.c) :
    ∃ v, ∀ m, (writeSamples w m qs).written a = some v := by
  induction qs with
  | nil =>
    obtain ⟨q, hq, _⟩ := h
    exact absurd hq List.not_mem_nil
  | cons r rs ih =>
    by_cases hlater : ∃ q ∈ rs, a = sampleAddr w q.x q.y q.c
    · obtain ⟨v, hv⟩ := ih hlater
      exact ⟨v, fun m => hv _⟩
    · have hlast : ∀ q ∈ rs, a ≠ sampleAddr w q.x q.y q.c := fun q hq he => hlater ⟨q, hq, he⟩
      obtain ⟨q, hq, ha⟩ := h
      obtain rfl | hq := List.mem_cons.1 hq
      · exact ⟨clampedByte q.v, fun m => by
          rw [writeSamples_cons, written_writeSamples_other hlast, writeSample, written_store,
            if_pos ha]⟩
      · exact absurd ha (hlast q hq)

/-- Row writes that cover what the column pass reads leave the same of it over any two SBs. -/
theorem sameScratch_of_covers {w aw ah : Nat} {qs : List SampleWrite} (sb sb' : Memory)
    (h : ∀ x y c, x < 2 * (aw / 2) → y < 2 * (ah / 2) → ∃ v, ⟨x, y, c, v⟩ ∈ qs) :
    SameScratch w aw ah (writeSamples w sb qs) (writeSamples w sb' qs) := by
  intro x y c hx hy
  obtain ⟨v, hmem⟩ := h x y c hx hy
  obtain ⟨byte, hbyte⟩ :=
    written_writeSamples_of_hit (w := w) (a := sampleAddr w x y c) ⟨_, hmem, rfl⟩
  simp only [scrRead, sbByte, hbyte, Option.getD_some]

/-- PB after a forward level depends on PB alone. -/
theorem fwdLevel_pb_congr (w aw ah : Nat) {b b' : Buffers} (h : b.pb = b'.pb) :
    (fwdLevel w aw ah b).pb = (fwdLevel w aw ah b').pb := by
  have hrow : SameScratch w aw ah _ _ := sameScratch_of_covers b.sb b'.sb fun x y c hx hy =>
    fwdRowWrites_covers (ah := ah) w b'.pb c hx (by omega)
  simp only [fwdLevel, fwdColWrites_congr hrow, h]

/-- PB after an inverse level depends on PB alone. -/
theorem invLevel_pb_congr (w aw ah : Nat) {b b' : Buffers} (h : b.pb = b'.pb) :
    (invLevel w aw ah b).pb = (invLevel w aw ah b').pb := by
  have hrow : SameScratch w aw ah _ _ := sameScratch_of_covers b.sb b'.sb fun x y c hx hy =>
    invRowWrites_covers (ah := ah) w b'.pb c hx (by omega)
  simp only [invLevel, invColWrites_congr hrow, h]

/-- The same for the loop of FWDN. -/
theorem fwdLevels_pb_congr (w h n : Nat) {b b' : Buffers} (hb : b.pb = b'.pb) :
    (fwdLevels w h n b).pb = (fwdLevels w h n b').pb := by
  induction n with
  | zero => exact hb
  | succ n ih =>
    rw [fwdLevels_succ, fwdLevels_succ]
    exact fwdLevel_pb_congr _ _ _ ih

/-- The same for the loop of INVN. -/
theorem invLevels_pb_congr (w h n : Nat) {b b' : Buffers} (hb : b.pb = b'.pb) :
    (invLevels w h n b).pb = (invLevels w h n b').pb := by
  induction n generalizing b b' with
  | zero => exact hb
  | succ n ih =>
    rw [invLevels_succ, invLevels_succ]
    exact ih (invLevel_pb_congr _ _ _ hb)

/-! ### Reduced and degenerate regions (R154) -/

/-- Row writes that agree leave what the column pass reads as a part of them that covers it does. -/
theorem sameScratch_of_subset {w aw ah : Nat} {qs rs : List SampleWrite} (sb : Memory)
    (hagree : Agree w qs) (hsub : rs ⊆ qs)
    (h : ∀ x y c, x < 2 * (aw / 2) → y < 2 * (ah / 2) → ∃ v, ⟨x, y, c, v⟩ ∈ rs) :
    SameScratch w aw ah (writeSamples w sb qs) (writeSamples w sb rs) := by
  intro x y c hx hy
  obtain ⟨v, hmem⟩ := h x y c hx hy
  have hagree' : Agree w rs := fun q hq r hr => hagree q (hsub hq) r (hsub hr)
  exact (scrRead_writeSamples_of_mem hagree (hsub hmem)).trans
    (scrRead_writeSamples_of_mem hagree' hmem).symm

theorem fwdRowWrites_even_subset (w aw ah : Nat) (m : Memory) :
    fwdRowWrites w (2 * (aw / 2)) (2 * (ah / 2)) m ⊆ fwdRowWrites w aw ah m := by
  intro q hq
  simp only [mem_fwdRowWrites, Nat.mul_div_cancel_left _ Nat.two_pos] at hq ⊢
  obtain ⟨y, hy, hrest⟩ := hq
  exact ⟨y, by omega, hrest⟩

theorem invRowWrites_even_subset (w aw ah : Nat) (m : Memory) :
    invRowWrites w (2 * (aw / 2)) (2 * (ah / 2)) m ⊆ invRowWrites w aw ah m := by
  intro q hq
  simp only [mem_invRowWrites, Nat.mul_div_cancel_left _ Nat.two_pos] at hq ⊢
  obtain ⟨y, hy, hrest⟩ := hq
  exact ⟨y, by omega, hrest⟩

theorem fwdLevel_pb_even {w aw : Nat} (ah : Nat) (b : Buffers) (hw : aw ≤ w) :
    (fwdLevel w aw ah b).pb = (fwdLevel w (2 * (aw / 2)) (2 * (ah / 2)) b).pb := by
  have hrow : SameScratch w aw ah _ _ := sameScratch_of_subset b.sb
    (fwdRowWrites_agree ah b.pb hw) (fwdRowWrites_even_subset w aw ah b.pb) fun x y c hx hy =>
      fwdRowWrites_covers w b.pb c (by omega) hy
  simp only [fwdLevel, fwdColWrites_even, fwdColWrites_congr hrow]

theorem invLevel_pb_even {w aw : Nat} (ah : Nat) (b : Buffers) (hw : aw ≤ w) :
    (invLevel w aw ah b).pb = (invLevel w (2 * (aw / 2)) (2 * (ah / 2)) b).pb := by
  have hrow : SameScratch w aw ah _ _ := sameScratch_of_subset b.sb
    (invRowWrites_agree ah b.pb hw) (invRowWrites_even_subset w aw ah b.pb) fun x y c hx hy =>
      invRowWrites_covers w b.pb c (by omega) hy
  simp only [invLevel, invColWrites_even, invColWrites_congr hrow]

/-- With no pair of columns or no pair of rows a column pass writes nothing. -/
theorem colWrites_degenerate {w aw ah : Nat} (m : Memory) (h : aw < 2 ∨ ah < 2) :
    fwdColWrites w aw ah m = [] ∧ invColWrites w aw ah m = [] := by
  have hhalf : aw / 2 = 0 ∨ ah / 2 = 0 := by omega
  rcases hhalf with hzero | hzero <;> simp [fwdColWrites, invColWrites, hzero]

/-- With no column or no row a row pass writes nothing either. -/
theorem rowWrites_empty {w aw ah : Nat} (m : Memory) (h : aw = 0 ∨ ah = 0) :
    fwdRowWrites w aw ah m = [] ∧ invRowWrites w aw ah m = [] := by
  rcases h with rfl | rfl <;> simp [fwdRowWrites, invRowWrites]

theorem level_pb_degenerate {w aw ah : Nat} (b : Buffers) (h : aw < 2 ∨ ah < 2) :
    (fwdLevel w aw ah b).pb = b.pb ∧ (invLevel w aw ah b).pb = b.pb := by
  simp only [fwdLevel, invLevel, (colWrites_degenerate _ h).1, (colWrites_degenerate _ h).2,
    writeSamples_nil, and_self]

theorem level_empty {w aw ah : Nat} (b : Buffers) (h : aw = 0 ∨ ah = 0) :
    fwdLevel w aw ah b = b ∧ invLevel w aw ah b = b := by
  have hcol : aw < 2 ∨ ah < 2 := by omega
  simp only [fwdLevel, invLevel, (rowWrites_empty _ h).1, (rowWrites_empty _ h).2,
    (colWrites_degenerate _ hcol).1, (colWrites_degenerate _ hcol).2, writeSamples_nil, and_self]

/-- Settles O38: no pair, the even sub-rectangle, and no sample at all. -/
theorem degenerateAndReducedRegions : Obligations.DegenerateAndReducedRegions :=
  fun _ _ ah b hw => ⟨level_pb_degenerate b, ⟨fwdLevel_pb_even ah b hw, invLevel_pb_even ah b hw⟩,
    level_empty b⟩

end Sys2Proof.Proofs
end

section
/-! PROOFS. SB never reaches an observer (10_state.md R37, 41_haar_level.md R152): two states that
differ only in SB step alike, so that their runs end with the same observation
(70_reset_and_hazards.md R244). -/

namespace Sys2Proof.Proofs

open Sys2Proof.Machine

/-- The state with another SB. -/
def withScratch (sb : Memory) (s : State) : State := { s with sb := sb }

/-! ### Instructions -/

/-- An operation that neither reads nor writes SB. -/
def IgnoresScratch (f : State → State) : Prop :=
  ∀ (s : State) (sb : Memory), f (withScratch sb s) = withScratch sb (f s)

/-- Operations chosen by what SB plays no part in. -/
theorem ignoresScratch_ite {f g : State → State} {c : State → Bool}
    (hc : ∀ s sb, c (withScratch sb s) = c s) (hf : IgnoresScratch f) (hg : IgnoresScratch g) :
    IgnoresScratch fun s => if c s then f s else g s := by
  intro s sb
  simp only [hc s sb, hf s sb, hg s sb, apply_ite (withScratch sb)]

theorem lockedWrite_ignoresScratch {write : State → State} (h : IgnoresScratch write) :
    IgnoresScratch (lockedWrite write) :=
  ignoresScratch_ite (fun _ _ => rfl) (fun _ _ => rfl) h

theorem boundedWrite_ignoresScratch {write : State → State} (h : IgnoresScratch write) :
    IgnoresScratch (boundedWrite write) :=
  ignoresScratch_ite (fun _ _ => rfl) h fun _ _ => rfl

theorem offerLevel_ignoresScratch (op : LevelOp) (n : BitVec 5) :
    IgnoresScratch (offerLevel op n) :=
  ignoresScratch_ite (fun _ _ => rfl) (fun _ _ => rfl) <|
    ignoresScratch_ite (fun _ _ => rfl) (fun _ _ => rfl) <|
      ignoresScratch_ite (fun _ _ => rfl) (fun _ _ => rfl) fun _ _ => rfl

theorem offer_ignoresScratch (v : Word) : IgnoresScratch (offer v) := by
  intro s sb
  cases hillegal : illegalCommand v with
  | true => simp only [offer, hillegal, if_pos]; rfl
  | false =>
    cases hop : levelOpOf (cmdOp v) with
    | none => simp only [offer, hillegal, hop]; rfl
    | some op =>
      simp only [offer, hillegal, hop]
      exact offerLevel_ignoresScratch op _ s sb

/-- Every instruction ignores SB: the locked writes by what they do when idle, the others at sight. -/
theorem exec_withScratch (i : Instr) {s t : State} (sb : Memory) (h : exec i s = .next t) :
    exec i (withScratch sb s) = .next (withScratch sb t) := by
  cases i <;> cases h
  case nop =>
    exact congrArg Host.Outcome.next (lockedWrite_ignoresScratch (fun _ _ => rfl) s sb)
  case fwd1 | inv1 | fwdn | invn =>
    exact congrArg Host.Outcome.next
      (lockedWrite_ignoresScratch (offerLevel_ignoresScratch _ _) s sb)
  case wrCmd =>
    exact congrArg Host.Outcome.next (lockedWrite_ignoresScratch (offer_ignoresScratch _) s sb)
  case wrWidth | wrHeight | wrAw | wrAh | wrPixX | wrPixY =>
    exact congrArg Host.Outcome.next (lockedWrite_ignoresScratch (fun _ _ => rfl) s sb)
  case wrPixData | wrPixGray =>
    exact congrArg Host.Outcome.next
      (lockedWrite_ignoresScratch (boundedWrite_ignoresScratch fun _ _ => rfl) s sb)
  all_goals rfl

/-! ### The engine, the step and the run -/

/-- The levels of a command leave the same PB over any SB. -/
theorem runPending_pb_congr (p : Pending) {b b' : Buffers} (h : b.pb = b'.pb) :
    (runPending p b).pb = (runPending p b').pb := by
  cases hop : p.op with simp only [runPending, hop]
  | fwd1 => exact fwdLevel_pb_congr _ _ _ h
  | inv1 => exact invLevel_pb_congr _ _ _ h
  | fwdn => exact fwdLevels_pb_congr _ _ _ h
  | invn => exact invLevels_pb_congr _ _ _ h

theorem complete_withScratch (p : Pending) (sb : Memory) (s : State) :
    complete p (withScratch sb s) = withScratch sb.scramble (complete p s) := by
  have hpb := runPending_pb_congr p (b := ⟨s.pb, sb⟩) (b' := ⟨s.pb, s.sb⟩) rfl
  simp only [complete, withScratch, hpb]

theorem engineTurn_withScratch (sb : Memory) {s t : State} (h : engineTurn s = .next t) :
    ∃ sb', engineTurn (withScratch sb s) = .next (withScratch sb' t) := by
  rcases engineTurn_cases s with ⟨hnone, e⟩ | ⟨p, hsome, hfits, e⟩ | ⟨p, _, _, e⟩ <;>
    rw [e] at h <;> cases h
  · exact ⟨sb, by simp only [engineTurn, withScratch, hnone]⟩
  · refine ⟨sb.scramble, ?_⟩
    rw [← complete_withScratch]
    simp only [engineTurn, withScratch, hsome, hfits, if_pos]

/-- A step over another SB is the same step, but for SB: by the event at the head of the agenda. -/
theorem step_withScratch (sb : Memory) {s t : State} (h : step s = .next t) :
    ∃ sb', step (withScratch sb s) = .next (withScratch sb' t) := by
  have hsame : (withScratch sb s).agenda = s.agenda := rfl
  rcases step_cases s with ⟨ha, e⟩ | ⟨tr, rest, ha, e⟩ | ⟨rest, ha, e⟩ | ⟨rest, ha, e⟩ <;>
    rw [e] at h <;> simp only [step, hsame, ha]
  · exact engineTurn_withScratch sb h
  · exact ⟨sb, exec_withScratch _ sb h⟩
  · exact engineTurn_withScratch sb h
  · cases h
    exact ⟨sb.scramble, rfl⟩

/-- A run stops where it is at its end. -/
theorem runToEnd_of_finished {s : State} (n : Nat) (h : s.finished = true) :
    runToEnd n s = .next s := by
  cases n with
  | zero => rfl
  | succ n => exact if_pos h

/-- A run that has not ended goes on by a step. -/
theorem runToEnd_succ_iff {s t : State} {n : Nat} (h : s.finished = false) :
    runToEnd (n + 1) s = .next t ↔ ∃ u, step s = .next u ∧ runToEnd n u = .next t := by
  simp only [runToEnd, h]
  cases step s <;> simp

/-- A run over another SB is the same run, but for SB: where it ends is seen without SB. -/
theorem runToEnd_withScratch (sb : Memory) (n : Nat) {s t : State} (h : runToEnd n s = .next t) :
    ∃ sb', runToEnd n (withScratch sb s) = .next (withScratch sb' t) := by
  induction n generalizing s sb with
  | zero => cases h; exact ⟨sb, rfl⟩
  | succ n ih =>
    have hsame : (withScratch sb s).finished = s.finished := rfl
    cases hfin : s.finished with
    | true =>
      rw [runToEnd_of_finished _ hfin] at h
      cases h
      exact ⟨sb, runToEnd_of_finished _ (hsame.trans hfin)⟩
    | false =>
      obtain ⟨u, hstep, hrun⟩ := (runToEnd_succ_iff hfin).1 h
      obtain ⟨sb₁, hstep'⟩ := step_withScratch sb hstep
      obtain ⟨sb₂, hrun'⟩ := ih sb₁ hrun
      exact ⟨sb₂, (runToEnd_succ_iff (hsame.trans hfin)).2 ⟨_, hstep', hrun'⟩⟩

/-- Settles O37: a level overwrites what it reads of SB, and the observation does not hold SB. -/
theorem scratchNeverReachesThePixelBuffer : Obligations.ScratchNeverReachesThePixelBuffer := by
  refine ⟨fun w aw ah pb sb sb' => ⟨fwdLevel_pb_congr w aw ah rfl, invLevel_pb_congr w aw ah rfl⟩,
    fun s t sb n hrun => ?_⟩
  obtain ⟨sb', hrun'⟩ := runToEnd_withScratch sb n hrun
  exact ⟨withScratch sb' t, hrun', rfl⟩

end Sys2Proof.Proofs
end

section
/-! PROOFS. The channels of a level (41_haar_level.md R153): each lane of PB after a level is one
function of that lane before it, on the even sub-rectangle alone. -/

namespace Sys2Proof.Proofs

open Sys2Proof.Machine Sys2Proof.Claims

/-! ### Samples and bytes -/

/-- Equal samples are equal bytes. -/
theorem pbByte_eq_of_px_eq {w x y x' y' : Nat} {c c' : Channel} {m m' : Memory}
    (h : px w m x y c = px w m' x' y' c') :
    pbByte m (sampleAddr w x y c) = pbByte m' (sampleAddr w x' y' c') :=
  BitVec.eq_of_toNat_eq (Int.ofNat_inj.1 h)

/-- Equal bytes are equal samples. -/
theorem px_eq_of_pbByte_eq {w x y x' y' : Nat} {c c' : Channel} {m m' : Memory}
    (h : pbByte m (sampleAddr w x y c) = pbByte m' (sampleAddr w x' y' c')) :
    px w m x y c = px w m' x' y' c' := by
  rw [px, px, h]

/-! ### A lane on the even sub-rectangle -/

/-- Lane `c'` of one buffer holds what lane `c` of another does, on `u` columns and `v` rows. -/
def SameLane (w u v : Nat) (m' : Memory) (c' : Channel) (m : Memory) (c : Channel) : Prop :=
  ∀ x y, x < u → y < v → px w m' x y c' = px w m x y c

/-- A forward level computes a lane of the even sub-rectangle from that lane of it. -/
theorem fwdLevel_sameLane {w aw ah : Nat} {b' b : Buffers} {c' c : Channel} (hw : aw ≤ w)
    (h : SameLane w (2 * (aw / 2)) (2 * (ah / 2)) b'.pb c' b.pb c) :
    SameLane w (2 * (aw / 2)) (2 * (ah / 2)) (fwdLevel w aw ah b').pb c'
      (fwdLevel w aw ah b).pb c := by
  intro x y hx hy
  obtain ⟨i, hi, hxi⟩ := exists_half_of_lt hx
  obtain ⟨j, hj, hyj⟩ := exists_half_of_lt hy
  have h00 := h (2 * i) (2 * j) (by omega) (by omega)
  have h10 := h (2 * i + 1) (2 * j) (by omega) (by omega)
  have h01 := h (2 * i) (2 * j + 1) (by omega) (by omega)
  have h11 := h (2 * i + 1) (2 * j + 1) (by omega) (by omega)
  obtain ⟨hLL', hHL', hLH', hHH'⟩ := forwardLevelClosedForm w aw ah i j c' b' hw hi hj
  obtain ⟨hLL, hHL, hLH, hHH⟩ := forwardLevelClosedForm w aw ah i j c b hw hi hj
  simp only [h00, h10, h01, h11] at hLL' hHL' hLH' hHH'
  obtain rfl | rfl := hxi <;> obtain rfl | rfl := hyj
  · exact hLL'.trans hLL.symm
  · exact hLH'.trans hLH.symm
  · exact hHL'.trans hHL.symm
  · exact hHH'.trans hHH.symm

/-- The same for an inverse level. -/
theorem invLevel_sameLane {w aw ah : Nat} {b' b : Buffers} {c' c : Channel} (hw : aw ≤ w)
    (h : SameLane w (2 * (aw / 2)) (2 * (ah / 2)) b'.pb c' b.pb c) :
    SameLane w (2 * (aw / 2)) (2 * (ah / 2)) (invLevel w aw ah b').pb c'
      (invLevel w aw ah b).pb c := by
  intro x y hx hy
  obtain ⟨i, hi, hxi⟩ := exists_pair_of_lt hx
  obtain ⟨j, hj, hyj⟩ := exists_pair_of_lt hy
  have hll := h i j (by omega) (by omega)
  have hhl := h (i + aw / 2) j (by omega) (by omega)
  have hlh := h i (j + ah / 2) (by omega) (by omega)
  have hhh := h (i + aw / 2) (j + ah / 2) (by omega) (by omega)
  obtain ⟨h00', h01', h10', h11'⟩ := inverseLevelClosedForm w aw ah i j c' b' hw hi hj
  obtain ⟨h00, h01, h10, h11⟩ := inverseLevelClosedForm w aw ah i j c b hw hi hj
  simp only [hll, hhl, hlh, hhh] at h00' h01' h10' h11'
  obtain rfl | rfl := hxi <;> obtain rfl | rfl := hyj
  · exact h00'.trans h00.symm
  · exact h01'.trans h01.symm
  · exact h10'.trans h10.symm
  · exact h11'.trans h11.symm

/-! ### The rest of the rectangle -/

theorem sampleAddr_outsideEven {w aw ah x y : Nat} (c : Channel) (hw : aw ≤ w) (hx : x < w)
    (h : ¬(x < 2 * (aw / 2) ∧ y < 2 * (ah / 2))) : OutsideEven w aw ah (sampleAddr w x y c) := by
  intro x' y' c' hx' hy' haddr
  obtain ⟨rfl, rfl, _⟩ := sampleAddr_inj hx (by omega) haddr
  exact h ⟨hx', hy'⟩

/-- Lanes that agree on the even sub-rectangle after a level, and on a rectangle around it before,
agree on all of the latter after it: the level keeps the rest. -/
theorem lanes_of_even {w aw ah u v : Nat} {m' m n' n : Memory} {f : Channel → Channel}
    (hw : aw ≤ w) (hu : u ≤ w)
    (heven : ∀ c, SameLane w (2 * (aw / 2)) (2 * (ah / 2)) n' c n (f c))
    (hkeep' : ∀ a, OutsideEven w aw ah a → pbByte n' a = pbByte m' a)
    (hkeep : ∀ a, OutsideEven w aw ah a → pbByte n a = pbByte m a)
    (h : ∀ x y c, x < u → y < v →
      pbByte m' (sampleAddr w x y c) = pbByte m (sampleAddr w x y (f c)))
    {x y : Nat} (c : Channel) (hx : x < u) (hy : y < v) :
    pbByte n' (sampleAddr w x y c) = pbByte n (sampleAddr w x y (f c)) := by
  by_cases hin : x < 2 * (aw / 2) ∧ y < 2 * (ah / 2)
  · exact pbByte_eq_of_px_eq (heven c x y hin.1 hin.2)
  · rw [hkeep' _ (sampleAddr_outsideEven c hw (by omega) hin),
      hkeep _ (sampleAddr_outsideEven (f c) hw (by omega) hin), h x y c hx hy]

/-- Settles O43: inside the even sub-rectangle by the closed forms, outside by the frame. -/
theorem lanesAreIndependentAndAlike : Obligations.LanesAreIndependentAndAlike := by
  intro w aw ah u v b b' f hw hau hu hav h x y c hx hy
  have hlane (c : Channel) : SameLane w (2 * (aw / 2)) (2 * (ah / 2)) b'.pb c b.pb (f c) :=
    fun x y hx hy => px_eq_of_pbByte_eq (h x y c (by omega) (by omega))
  exact ⟨lanes_of_even hw hu (fun c => fwdLevel_sameLane hw (hlane c))
      (fun _ => fwdLevel_outside b') (fun _ => fwdLevel_outside b) h c hx hy,
    lanes_of_even hw hu (fun c => invLevel_sameLane hw (hlane c))
      (fun _ => invLevel_outside b') (fun _ => invLevel_outside b) h c hx hy⟩

end Sys2Proof.Proofs
end

section
/-! PROOFS. The exact round trip (41_haar_level.md R156): a level on multiples of 4 loses nothing, and
leaves multiples of 4^m where multiples of 4^(m+1) were, so that the next level finds what it needs. -/

namespace Sys2Proof.Proofs

open Sys2Proof.Machine Sys2Proof.Claims

/-! ### One block of multiples of 4 -/

theorem avg_of_sum {p q r : Int} (h : p + q = 2 * r) : avg p q = r := by
  rw [avg, h, Int.mul_tdiv_cancel_left _ (by decide)]

theorem det_of_diff {p q r : Int} (h : p - q = 2 * r) : det p q = r + 128 := by
  rw [det, h, Int.mul_tdiv_cancel_left _ (by decide)]

theorem evn_of_sum {p d r : Int} (h : p + (d - 128) = r) (h0 : 0 ≤ r) (h1 : r ≤ 255) :
    evn p d = r := by
  rw [evn, h, ← clampByte_eq_clamp, clampByte_of_range h0 h1]

theorem odd_of_diff {p d r : Int} (h : p - (d - 128) = r) (h0 : 0 ≤ r) (h1 : r ≤ 255) :
    odd p d = r := by
  rw [odd, h, ← clampByte_eq_clamp, clampByte_of_range h0 h1]

/-- The coefficients of a block of multiples of 4: no rounding. -/
theorem forward_block_of_four (a b c d : Int) :
    avg (avg (4 * a) (4 * b)) (avg (4 * c) (4 * d)) = a + b + c + d ∧
    avg (det (4 * a) (4 * b)) (det (4 * c) (4 * d)) = a - b + c - d + 128 ∧
    det (avg (4 * a) (4 * b)) (avg (4 * c) (4 * d)) = a + b - c - d + 128 ∧
    det (det (4 * a) (4 * b)) (det (4 * c) (4 * d)) = a - b - c + d + 128 := by
  rw [avg_of_sum (p := 4 * a) (r := 2 * (a + b)) (by ring),
    avg_of_sum (p := 4 * c) (r := 2 * (c + d)) (by ring),
    det_of_diff (p := 4 * a) (r := 2 * (a - b)) (by ring),
    det_of_diff (p := 4 * c) (r := 2 * (c - d)) (by ring)]
  exact ⟨avg_of_sum (by ring), avg_of_sum (by ring), det_of_diff (by ring), det_of_diff (by ring)⟩

/-- Four times `a` is a sample. -/
def QuarterSample (a : Int) : Prop := 0 ≤ 4 * a ∧ 4 * a ≤ 255

/-- The samples that those coefficients give back: no clamping. -/
theorem inverse_block_of_four {a b c d : Int} (ha : QuarterSample a) (hb : QuarterSample b)
    (hc : QuarterSample c) (hd : QuarterSample d) :
    let ll := a + b + c + d
    let hl := a - b + c - d + 128
    let lh := a + b - c - d + 128
    let hh := a - b - c + d + 128
    evn (evn ll hl) (evn lh hh) = 4 * a ∧ odd (evn ll hl) (evn lh hh) = 4 * c ∧
    evn (odd ll hl) (odd lh hh) = 4 * b ∧ odd (odd ll hl) (odd lh hh) = 4 * d := by
  intro ll hl lh hh
  unfold QuarterSample at ha hb hc hd
  have hel : evn ll hl = 2 * a + 2 * c := evn_of_sum (by ring) (by omega) (by omega)
  have heh : evn lh hh = 2 * a - 2 * c + 128 := evn_of_sum (by ring) (by omega) (by omega)
  have hol : odd ll hl = 2 * b + 2 * d := odd_of_diff (by ring) (by omega) (by omega)
  have hoh : odd lh hh = 2 * b - 2 * d + 128 := odd_of_diff (by ring) (by omega) (by omega)
  rw [hel, heh, hol, hoh]
  exact ⟨evn_of_sum (by ring) ha.1 ha.2, odd_of_diff (by ring) hc.1 hc.2,
    evn_of_sum (by ring) hb.1 hb.2, odd_of_diff (by ring) hd.1 hd.2⟩

/-! ### One level -/

/-- Every sample of the region of `aw` columns and `ah` rows is a multiple of `k`. -/
def Multiples (k w aw ah : Nat) (m : Memory) : Prop :=
  ∀ x y c, x < aw → y < ah → k ∣ (pbByte m (sampleAddr w x y c)).toNat

theorem Multiples.quarter {w aw ah x y : Nat} {m : Memory} (h : Multiples 4 w aw ah m)
    (c : Channel) (hx : x < aw) (hy : y < ah) :
    ∃ a, px w m x y c = 4 * a ∧ QuarterSample a := by
  obtain ⟨k, hk⟩ := h x y c hx hy
  have hlt := (pbByte m (sampleAddr w x y c)).isLt
  exact ⟨k, by rw [px, hk]; rfl, by unfold QuarterSample; omega⟩

/-- An inverse level undoes a forward level on multiples of 4, on a buffer that reads as PB does
after the latter. -/
theorem invLevel_fwdLevel {w aw ah : Nat} {b b' : Buffers} (hw : aw ≤ w)
    (h4 : Multiples 4 w aw ah b.pb)
    (hb : ∀ a, pbByte b'.pb a = pbByte (fwdLevel w aw ah b).pb a) (a : Nat) :
    pbByte (invLevel w aw ah b').pb a = pbByte b.pb a := by
  by_cases hout : OutsideEven w aw ah a
  · rw [invLevel_outside b' hout, hb, fwdLevel_outside b hout]
  · unfold OutsideEven at hout
    push Not at hout
    obtain ⟨x, y, c, hx, hy, rfl⟩ := hout
    apply pbByte_eq_of_px_eq
    obtain ⟨i, hi, hxi⟩ := exists_pair_of_lt hx
    obtain ⟨j, hj, hyj⟩ := exists_pair_of_lt hy
    obtain ⟨s00, e00, q00⟩ := h4.quarter (x := 2 * i) (y := 2 * j) c (by omega) (by omega)
    obtain ⟨s10, e10, q10⟩ := h4.quarter (x := 2 * i + 1) (y := 2 * j) c (by omega) (by omega)
    obtain ⟨s01, e01, q01⟩ := h4.quarter (x := 2 * i) (y := 2 * j + 1) c (by omega) (by omega)
    obtain ⟨s11, e11, q11⟩ := h4.quarter (x := 2 * i + 1) (y := 2 * j + 1) c (by omega) (by omega)
    have hpx (x y : Nat) : px w b'.pb x y c = px w (fwdLevel w aw ah b).pb x y c :=
      px_eq_of_pbByte_eq (hb _)
    obtain ⟨hLL, hHL, hLH, hHH⟩ := forwardLevelClosedForm w aw ah i j c b hw hi hj
    obtain ⟨h00, h01, h10, h11⟩ := inverseLevelClosedForm w aw ah i j c b' hw hi hj
    obtain ⟨fLL, fHL, fLH, fHH⟩ := forward_block_of_four s00 s10 s01 s11
    obtain ⟨i00, i01, i10, i11⟩ := inverse_block_of_four q00 q10 q01 q11
    simp only [e00, e10, e01, e11, fLL, fHL, fLH, fHH] at hLL hHL hLH hHH
    simp only [hpx, hLL, hHL, hLH, hHH, i00, i01, i10, i11] at h00 h01 h10 h11
    obtain rfl | rfl := hxi <;> obtain rfl | rfl := hyj
    · exact h00.trans e00.symm
    · exact h01.trans e01.symm
    · exact h10.trans e10.symm
    · exact h11.trans e11.symm

/-- The approximations of a block of multiples of `4 * k` are multiples of `k`. -/
theorem fwdLevel_multiples {k w aw ah : Nat} {b : Buffers} (hw : aw ≤ w)
    (h : Multiples (4 * k) w aw ah b.pb) :
    Multiples k w (aw / 2) (ah / 2) (fwdLevel w aw ah b).pb := by
  intro x y c hx hy
  obtain ⟨s00, e00⟩ := h (2 * x) (2 * y) c (by omega) (by omega)
  obtain ⟨s10, e10⟩ := h (2 * x + 1) (2 * y) c (by omega) (by omega)
  obtain ⟨s01, e01⟩ := h (2 * x) (2 * y + 1) c (by omega) (by omega)
  obtain ⟨s11, e11⟩ := h (2 * x + 1) (2 * y + 1) c (by omega) (by omega)
  obtain ⟨hLL, _⟩ := forwardLevelClosedForm w aw ah x y c b hw hx hy
  obtain ⟨fLL, _⟩ := forward_block_of_four (k * s00) (k * s10) (k * s01) (k * s11)
  simp only [px, e00, e10, e01, e11, Nat.cast_mul, Nat.cast_ofNat, mul_assoc, fLL] at hLL
  refine ⟨s00 + s10 + s01 + s11, Int.ofNat_inj.1 (hLL.trans ?_)⟩
  push_cast
  ring

/-! ### The loops -/

/-- After `n` levels the region of the next one holds multiples of `k`, where multiples of
`4 ^ n * k` were. -/
theorem fwdLevels_multiples (w h n k : Nat) (b : Buffers) (hm : Multiples (4 ^ n * k) w w h b.pb) :
    Multiples k w (levelSide w n) (levelSide h n) (fwdLevels w h n b).pb := by
  induction n generalizing k with
  | zero =>
    rw [pow_zero, one_mul] at hm
    exact hm
  | succ n ih =>
    rw [fwdLevels_succ, levelSide, levelSide, Nat.shiftRight_succ, Nat.shiftRight_succ]
    refine fwdLevel_multiples (Nat.shiftRight_le w n) (ih (4 * k) ?_)
    rwa [pow_succ, mul_assoc] at hm

/-- The loop of INVN undoes the loop of FWDN on multiples of `4 ^ n`: the last level first. -/
theorem invLevels_fwdLevels (w h n : Nat) {b b' : Buffers} (hm : Multiples (4 ^ n) w w h b.pb)
    (hb : ∀ a, pbByte b'.pb a = pbByte (fwdLevels w h n b).pb a) (a : Nat) :
    pbByte (invLevels w h n b').pb a = pbByte b.pb a := by
  induction n generalizing b' with
  | zero => exact hb a
  | succ n ih =>
    rw [pow_succ] at hm
    have hlevel : Multiples 4 w (levelSide w n) (levelSide h n) (fwdLevels w h n b).pb :=
      fwdLevels_multiples w h n 4 b hm
    rw [fwdLevels_succ] at hb
    rw [invLevels_succ]
    exact ih (fun x y c hx hy => dvd_of_mul_right_dvd (hm x y c hx hy))
      (invLevel_fwdLevel (Nat.shiftRight_le w n) hlevel hb)

/-- Settles O41. The multiples alone suffice: an unpaired column or row is left as it was. -/
theorem exactRoundTripOnMultiplesOfFour : Obligations.ExactRoundTripOnMultiplesOfFour :=
  fun w h n _ _ _ _ hm => invLevels_fwdLevels w h n hm fun _ => rfl

end Sys2Proof.Proofs
end

section
/-! PROOFS. The acceptance of a command (42_commands.md R170 to R173): what becomes of an offered
level command, and from it what each command and each word written to CMD does. -/

namespace Sys2Proof.Proofs

open Sys2Proof.Machine Sys2Proof.Claims

/-! ### An offered level command -/

/-- The geometry checks of R170: the image fits the buffer, and the region of FWD1 and INV1 fits the
image. -/
structure GeometryOk (op : LevelOp) (s : State) : Prop where
  image : geomFits s
  region : op.usesActive = true → s.aw.toNat ≤ s.width.toNat ∧ s.ah.toNat ≤ s.height.toNat

theorem geometryOk_iff (op : LevelOp) (s : State) : GeometryOk op s ↔
    s.geomOk = true ∧ (op.usesActive = true → activeTooLarge s = false) := by
  have hregion : activeTooLarge s = false ↔
      s.aw.toNat ≤ s.width.toNat ∧ s.ah.toNat ≤ s.height.toNat := by
    rw [← Bool.not_eq_true, activeTooLarge_iff]
    omega
  rw [geomOk_iff, hregion]
  exact ⟨fun h => ⟨h.image, h.region⟩, fun ⟨himage, hr⟩ => ⟨himage, hr⟩⟩

theorem offerLevel_misfit {op : LevelOp} {n : BitVec 5} {s : State} (h : ¬GeometryOk op s) :
    offerLevel op n s = rejected 2 s := by
  rw [geometryOk_iff] at h
  rcases offerLevel_cases op n s with ⟨_, e⟩ | ⟨hgeom, hu, _, _⟩ | ⟨hgeom, hactive, _, _⟩
  · exact e
  · exact absurd ⟨hgeom, fun hu' => nomatch hu.symm.trans hu'⟩ h
  · exact absurd ⟨hgeom, hactive⟩ h

theorem offerLevel_no_level {op : LevelOp} {s : State} (h : GeometryOk op s)
    (hu : op.usesActive = false) : offerLevel op 0 s = completeNow s := by
  obtain ⟨hgeom, _⟩ := (geometryOk_iff op s).1 h
  simp [offerLevel, hgeom, hu]

theorem offerLevel_accepted {op : LevelOp} {n : BitVec 5} {s : State} (h : GeometryOk op s)
    (hn : op.usesActive = false → n ≠ 0) : offerLevel op n s = accepted op n s := by
  obtain ⟨hgeom, hactive⟩ := (geometryOk_iff op s).1 h
  rcases offerLevel_cases op n s with ⟨hmisfit | ⟨hu, hlarge⟩, _⟩ | ⟨_, hu, hzero, _⟩ | ⟨_, _, _, e⟩
  · exact nomatch hgeom.symm.trans hmisfit
  · exact nomatch (hactive hu).symm.trans hlarge
  · exact absurd hzero (hn hu)
  · exact e

/-! ### The instructions that offer a level command -/

/-- The instruction puts the offer of a level command behind the busy lock. -/
def Offers (i : Instr) (op : LevelOp) (n : BitVec 5) : Prop :=
  ∀ s, exec i s = .next (lockedWrite (offerLevel op n) s)

theorem fwd1_offers : Offers .fwd1 .fwd1 0 := fun _ => rfl
theorem inv1_offers : Offers .inv1 .inv1 0 := fun _ => rfl
theorem fwdn_offers (n : BitVec 5) : Offers (.fwdn n) .fwdn n := fun _ => rfl
theorem invn_offers (n : BitVec 5) : Offers (.invn n) .invn n := fun _ => rfl

section

variable {i : Instr} {op : LevelOp} {n : BitVec 5} {s : State}

theorem Offers.exec_busy (h : Offers i op n) (hbusy : s.pending ≠ none) :
    exec i s = .next (rejected 4 s) := by
  rw [h, lockedWrite_rejected _ hbusy]

theorem Offers.exec_misfit (h : Offers i op n) (hidle : s.pending = none)
    (hmisfit : ¬GeometryOk op s) : exec i s = .next (rejected 2 s) := by
  rw [h, lockedWrite_idle _ hidle, offerLevel_misfit hmisfit]

theorem Offers.exec_no_level (h : Offers i op n) (hidle : s.pending = none)
    (hgeom : GeometryOk op s) (hu : op.usesActive = false) (hn : n = 0) :
    exec i s = .next { s with done := true } := by
  rw [h, lockedWrite_idle _ hidle, hn, offerLevel_no_level hgeom hu, completeNow]

theorem Offers.exec_accepted (h : Offers i op n) (hidle : s.pending = none)
    (hgeom : GeometryOk op s) (hn : op.usesActive = false → n ≠ 0) :
    exec i s = .next (accepted op n s) := by
  rw [h, lockedWrite_idle _ hidle, offerLevel_accepted hgeom hn]

end

/-- Settles O30: both offer a level over AW and AH, so that only the geometry is checked. -/
theorem singleLevelCommandsAreAccepted : Obligations.SingleLevelCommandsAreAccepted := by
  intro s
  refine ⟨fun hidle => ⟨fun hgeom haw hah => ?_, fun hout => ?_⟩, fun hbusy => ?_⟩
  · exact ⟨fwd1_offers.exec_accepted hidle ⟨hgeom, fun _ => ⟨haw, hah⟩⟩ nofun,
      inv1_offers.exec_accepted hidle ⟨hgeom, fun _ => ⟨haw, hah⟩⟩ nofun⟩
  · have hmisfit (op : LevelOp) (hu : op.usesActive = true) : ¬GeometryOk op s := by
      intro hok
      obtain ⟨haw, hah⟩ := hok.region hu
      rcases hout with hgeom | haw' | hah'
      · exact hgeom hok.image
      · omega
      · omega
    exact ⟨fwd1_offers.exec_misfit hidle (hmisfit _ rfl),
      inv1_offers.exec_misfit hidle (hmisfit _ rfl)⟩
  · exact ⟨fwd1_offers.exec_busy hbusy, inv1_offers.exec_busy hbusy⟩

/-- Settles O31: both offer levels over the whole image, so that AW and AH are not checked. -/
theorem multiLevelCommandsAreAccepted : Obligations.MultiLevelCommandsAreAccepted := by
  intro s n
  have hfwdn := fwdn_offers n
  have hinvn := invn_offers n
  refine ⟨fun hidle => ⟨fun hgeom hn => ?_, fun hgeom hn => ?_, fun hgeom => ?_⟩, fun hbusy => ?_⟩
  · exact ⟨hfwdn.exec_accepted hidle ⟨hgeom, nofun⟩ fun _ => hn,
      hinvn.exec_accepted hidle ⟨hgeom, nofun⟩ fun _ => hn⟩
  · exact ⟨hfwdn.exec_no_level hidle ⟨hgeom, nofun⟩ rfl hn,
      hinvn.exec_no_level hidle ⟨hgeom, nofun⟩ rfl hn⟩
  · exact ⟨hfwdn.exec_misfit hidle fun hok => hgeom hok.image,
      hinvn.exec_misfit hidle fun hok => hgeom hok.image⟩
  · exact ⟨hfwdn.exec_busy hbusy, hinvn.exec_busy hbusy⟩

/-! ### NOP -/

/-- NOP while idle (R173): DONE becomes 1, in every geometry. -/
theorem exec_nop_idle {s : State} (hidle : s.pending = none) :
    exec .nop s = .next { s with done := true } :=
  congrArg Host.Outcome.next (lockedWrite_idle completeNow hidle)

/-- A word with OP 0 and a bit above OP set is illegal: the one legal word with OP 0 is 0 (R71). -/
theorem illegalCommand_of_op_zero {w : Word} (hop : cmdOp w = 0#8)
    (hhigh : w.extractLsb' 8 24 ≠ 0#24) : illegalCommand w = true := by
  by_contra hlegal
  obtain ⟨i, hi⟩ := exists_commandWord_of_legal hlegal
  cases hi with
  | nop => exact hhigh (by decide)
  | fwd1 | inv1 | fwdn | invn =>
    rw [cmdOp_cmdWord] at hop
    exact absurd hop (by decide)

/-- Settles O29: NOP puts only `completeNow` behind the lock, and DONE with IRQ_EN raises `irq`. -/
theorem nopSetsDone : Obligations.NopSetsDone := by
  refine ⟨CommandWord.nop.decode_eq, fun s => exec_nop_idle, fun s hbusy => ?_,
    fun s w hop hhigh hidle => ?_, fun s hidle hirqEn => ?_⟩
  · exact congrArg Host.Outcome.next (lockedWrite_rejected completeNow hbusy)
  · exact exec_wrCmd_illegal (illegalCommand_of_op_zero hop hhigh) hidle
  · exact ⟨_, exec_nop_idle hidle, (irq_iff _).2 ⟨hirqEn, .inl rfl⟩⟩

/-! ### Words written to CMD -/

/-- A legal word of a level command, written to CMD, offers that command with its LEVELS (R106). -/
theorem wrCmd_offers {v : Word} {op : LevelOp} (hlegal : ¬illegalCommand v = true)
    (hop : levelOpOf (cmdOp v) = some op) : Offers (.wrCmd v) op (cmdLevels v) := by
  have hoffer : offer v = offerLevel op (cmdLevels v) := by
    funext s
    simp only [offer, hop, if_neg hlegal]
  intro s
  rw [← hoffer]
  rfl

/-- A legal word with OP 0, written to CMD while idle, is NOP. -/
theorem exec_wrCmd_nop {v : Word} {s : State} (hlegal : ¬illegalCommand v = true)
    (hop : cmdOp v = 0#8) (hidle : s.pending = none) :
    exec (.wrCmd v) s = .next { s with done := true } := by
  have hoffer : offer v s = completeNow s := by
    simp only [offer, if_neg hlegal, hop]
    rfl
  exact congrArg Host.Outcome.next ((lockedWrite_idle _ hidle).trans hoffer)

/-- A legal word with OP not 0 is a level command's. -/
theorem exists_levelOp_of_legal {v : Word} (hlegal : ¬illegalCommand v = true)
    (hop : cmdOp v ≠ 0#8) : ∃ op, levelOpOf (cmdOp v) = some op := by
  obtain ⟨i, hi⟩ := exists_commandWord_of_legal hlegal
  cases hi <;> rw [cmdOp_cmdWord] at hop ⊢
  case nop => exact absurd rfl hop
  all_goals exact ⟨_, rfl⟩

/-- Settles O27: the checks in the order of R170, the legal words by their OP. -/
theorem cmdWriteDecision : Obligations.CmdWriteDecision := by
  intro s v op n illegal tooLarge
  have hdecision : illegalCommand v = true ↔ illegal := illegalCommand_iff v
  have offers {code : BitVec 8} {level : LevelOp} (hlevel : levelOpOf code = some level)
      (hlegal : ¬illegal) (hop : op = code) : Offers (.wrCmd v) level n :=
    wrCmd_offers (mt hdecision.1 hlegal) ((congrArg levelOpOf hop).trans hlevel)
  have hfwd1 : ¬illegal → op = 1#8 → Offers (.wrCmd v) .fwd1 n := offers rfl
  have hinv1 : ¬illegal → op = 2#8 → Offers (.wrCmd v) .inv1 n := offers rfl
  have hfwdn : ¬illegal → op = 3#8 → Offers (.wrCmd v) .fwdn n := offers rfl
  have hinvn : ¬illegal → op = 4#8 → Offers (.wrCmd v) .invn n := offers rfl
  have hregion : ¬tooLarge ↔ s.aw.toNat ≤ s.width.toNat ∧ s.ah.toNat ≤ s.height.toNat := by
    simp only [tooLarge, not_or, not_lt]
  refine ⟨decode_writeRow 3 v, exec_writeOf_busy (r := .cmd) (by decide) v, fun hidle =>
    ⟨fun h => ?_, fun hlegal hop hgeom => ?_, fun hlegal hop hgeom hlarge => ?_,
      fun hlegal hop => ?_, fun hlegal hop hn hgeom => ?_, fun hlegal hop hgeom hfit => ?_,
      fun hlegal hop hgeom hfit => ?_, fun hlegal hop hn hgeom => ?_,
      fun hlegal hop hn hgeom => ?_⟩⟩
  · exact exec_wrCmd_illegal (hdecision.2 h) hidle
  · obtain ⟨level, hlevel⟩ := exists_levelOp_of_legal (mt hdecision.1 hlegal) hop
    exact (offers hlevel hlegal rfl).exec_misfit hidle fun hok => hgeom hok.image
  · obtain hop | hop := hop
    · exact (hfwd1 hlegal hop).exec_misfit hidle fun hok => hregion.2 (hok.region rfl) hlarge
    · exact (hinv1 hlegal hop).exec_misfit hidle fun hok => hregion.2 (hok.region rfl) hlarge
  · exact exec_wrCmd_nop (mt hdecision.1 hlegal) hop hidle
  · obtain hop | hop := hop
    · exact (hfwdn hlegal hop).exec_no_level hidle ⟨hgeom, nofun⟩ rfl hn
    · exact (hinvn hlegal hop).exec_no_level hidle ⟨hgeom, nofun⟩ rfl hn
  · exact (hfwd1 hlegal hop).exec_accepted hidle ⟨hgeom, fun _ => hregion.1 hfit⟩ nofun
  · exact (hinv1 hlegal hop).exec_accepted hidle ⟨hgeom, fun _ => hregion.1 hfit⟩ nofun
  · exact (hfwdn hlegal hop).exec_accepted hidle ⟨hgeom, nofun⟩ fun _ => hn
  · exact (hinvn hlegal hop).exec_accepted hidle ⟨hgeom, nofun⟩ fun _ => hn

end Sys2Proof.Proofs
end

section
/-! PROOFS. The engine's turn (42_commands.md R178): the completion of the command in progress, the
command written and then completed, and the only ways out of BUSY. -/

namespace Sys2Proof.Proofs

open Sys2Proof.Machine Sys2Proof.Claims

/-! ### The engine's turn as a step -/

/-- The agenda gives the engine its turn, and `rest` comes after it: an engine event at the head, or
no event left (log 8). -/
def EngineNext (s : State) (rest : List Event) : Prop :=
  s.agenda = .engine :: rest ∨ (s.agenda = [] ∧ rest = [])

theorem EngineNext.step_eq {s : State} {rest : List Event} (h : EngineNext s rest) :
    step s = engineTurn { s with agenda := rest } := by
  rcases h with ha | ⟨ha, rfl⟩
  · simp only [step, ha]
  · calc step s = engineTurn s := by simp only [step, ha]
      _ = engineTurn { s with agenda := [] } := by rw [← ha]

theorem engineTurn_idle {s : State} (h : s.pending = none) : engineTurn s = .next s := by
  simp only [engineTurn, h]

theorem engineTurn_completes {s : State} {p : Pending} (hpending : s.pending = some p)
    (hfits : p.fits s.capacity = true) : engineTurn s = .next (complete p s) := by
  simp only [engineTurn, hpending, if_pos hfits]

/-- Settles O54: both are engine turns with nothing in progress. -/
theorem idleStepsChangeNothing : Obligations.IdleStepsChangeNothing := by
  refine ⟨fun s rest hidle ha => ?_, fun s hidle ha => ?_⟩
  · have hnext : EngineNext s rest := .inl ha
    exact hnext.step_eq.trans (engineTurn_idle hidle)
  · have hnext : EngineNext s [] := .inr ⟨ha, rfl⟩
    rw [hnext.step_eq, ← ha]
    exact engineTurn_idle hidle

/-! ### The completion -/

/-- The level count of a command is its field, not scaled (30_encoding.md R72). -/
theorem levelCount_eq (n : BitVec 5) : levelCount n = n.toNat := by
  have := n.isLt
  simp only [levelCount, BitVec.toNat_setWidth]
  omega

/-- A side of the region of level `i` is the side of the image div 2^i (R176). -/
theorem levelSide_eq (side i : Nat) : levelSide side i = side / 2 ^ i :=
  Nat.shiftRight_eq_div_pow side i

/-- The engine's turn in a step: PB takes the levels' result, SB some value, and DONE is 1 with
nothing in progress (R178). -/
theorem step_completes {s : State} {p : Pending} {rest : List Event} (hnext : EngineNext s rest)
    (hpending : s.pending = some p) (hfits : p.fits s.capacity = true) :
    ∃ sb : Memory, step s = .next
      { s with
        pb := (runPending p ⟨s.pb, s.sb⟩).pb
        sb := sb
        pending := none
        done := true
        agenda := rest } :=
  ⟨s.sb.scramble, hnext.step_eq.trans
    (engineTurn_completes (s := { s with agenda := rest }) hpending hfits)⟩

/-- Settles O32: the levels of the record by its kind. -/
theorem completionRunsTheLevels : Obligations.CompletionRunsTheLevels := by
  intro s p rest hpending himage hactive hnext b w h n
  have hfits : p.fits s.capacity = true := by
    refine (pending_fits_iff _ _).2 ⟨himage, fun hu => hactive ?_⟩
    cases hop : p.op with
    | fwd1 => exact .inl rfl
    | inv1 => exact .inr rfl
    | fwdn | invn => exact nomatch (congrArg LevelOp.usesActive hop).symm.trans hu
  obtain ⟨sb, hstep⟩ := step_completes hnext hpending hfits
  refine ⟨sb, hstep.trans ?_⟩
  cases hop : p.op <;>
    simp only [runPending, hop, fwdLevels, invLevels, levelSide_eq, levelCount_eq, b, w, h, n]

/-! ### A command written and then completed -/

/-- A run goes on with the state after its first step. -/
theorem run_of_step {s t : State} (n : Nat) (h : step s = .next t) :
    Host.Core.run Sys2Proof.core (n + 1) s = Host.Core.run Sys2Proof.core n t := by
  have hstep : Sys2Proof.core.step s = .next t := h
  simp only [Host.Core.run, hstep]

/-- The record that the acceptance of a command makes (R171). -/
def recordOf (op : LevelOp) (n : BitVec 5) (s : State) : Pending :=
  { op := op, levels := n, w := s.width, h := s.height, aw := s.aw, ah := s.ah }

theorem accepted_pending (op : LevelOp) (n : BitVec 5) (s : State) :
    (accepted op n s).pending = some (recordOf op n s) := rfl

/-- The record of an accepted command fits: the checks of R170 are the precondition of R140. -/
theorem GeometryOk.fits {op : LevelOp} {s : State} (h : GeometryOk op s) (n : BitVec 5) :
    (recordOf op n s).fits s.capacity = true :=
  (pending_fits_iff _ _).2 ⟨h.image, h.region⟩

/-- A level command's word on the bus and the engine's turn after it: the levels of the record that
the acceptance made. -/
theorem run_command {s : State} {word : Word} {i : Instr} {op : LevelOp} {n : BitVec 5}
    (rest : List Event) (hword : CommandWord word i) (hoffers : Offers i op n)
    (hidle : s.pending = none) (hgeom : GeometryOk op s) (hn : op.usesActive = false → n ≠ 0) :
    ∃ sb : Memory,
      Host.Core.run Sys2Proof.core 2 { s with agenda := .host (.cmd word) :: .engine :: rest } =
        .next { s with
          pb := (runPending (recordOf op n s) ⟨s.pb, s.sb⟩).pb
          sb := sb
          done := true
          agenda := rest } := by
  have hwrite : step { s with agenda := .host (.cmd word) :: .engine :: rest } =
      .next (accepted op n { s with agenda := .engine :: rest }) := by
    rw [step_of_agenda_host rfl, portInstr_of_decode_ok hword.decode_eq]
    exact hoffers.exec_accepted hidle ⟨hgeom.image, hgeom.region⟩ hn
  have hnext : EngineNext (accepted op n { s with agenda := .engine :: rest }) rest := .inl rfl
  obtain ⟨sb, hturn⟩ := step_completes hnext (accepted_pending op n _) (hgeom.fits n)
  refine ⟨sb, ?_⟩
  rw [run_of_step 1 hwrite, run_of_step 0 hturn, hidle]
  rfl

/-- Settles O33: the four commands' words, each with the levels of its record. -/
theorem commandsTransformThePixelBuffer : Obligations.CommandsTransformThePixelBuffer := by
  intro s rest n hidle hgeom hn b w h run done
  have hcount := levelCount_eq n
  refine ⟨fun haw hah => ⟨?_, ?_⟩, ?_, ?_⟩
  · exact run_command rest .fwd1 fwd1_offers hidle ⟨hgeom, fun _ => ⟨haw, hah⟩⟩ nofun
  · exact run_command rest .inv1 inv1_offers hidle ⟨hgeom, fun _ => ⟨haw, hah⟩⟩ nofun
  · rw [← hcount]
    exact run_command rest (.fwdn n) (fwdn_offers n) hidle ⟨hgeom, nofun⟩ fun _ => hn
  · rw [← hcount]
    exact run_command rest (.invn n) (invn_offers n) hidle ⟨hgeom, nofun⟩ fun _ => hn

/-! ### The ways out of BUSY -/

/-- An engine turn that goes on leaves nothing in progress, and DONE at 1 if something was. -/
theorem engineTurn_ends {s t : State} (h : engineTurn s = .next t) :
    t.pending = none ∧ (s.pending ≠ none → t.done = true) := by
  rcases engineTurn_cases s with ⟨hidle, e⟩ | ⟨p, _, _, e⟩ | ⟨_, _, _, e⟩ <;>
    rw [e] at h <;> cases h
  · exact ⟨hidle, fun hbusy => absurd hidle hbusy⟩
  · exact ⟨rfl, fun _ => rfl⟩

/-- A host transaction neither ends what is in progress nor changes what it works on, and is
taken off the agenda. -/
theorem step_host_busy {s t : State} {p : Pending} {tr : Transfer} {rest : List Event}
    (ha : s.agenda = .host tr :: rest) (hpending : s.pending = some p) (hstep : step s = .next t) :
    t.pending = some p ∧ t.pb = s.pb ∧ t.width = s.width ∧ t.height = s.height ∧ t.aw = s.aw ∧
      t.ah = s.ah ∧ t.pixX = s.pixX ∧ t.pixY = s.pixY ∧ t.agenda = rest := by
  rw [step_of_agenda_host ha] at hstep
  obtain ⟨hp, hw, hh, haw, hah, hx, hy, hpb, _⟩ :=
    busyCommandOwnsItsOperands _ { s with agenda := rest } t p hpending hstep
  obtain ⟨_, _, hagenda⟩ := effect_unwritten (exec_effect hstep)
  exact ⟨hp, hpb, hw, hh, haw, hah, hx, hy, hagenda⟩

/-- Settles O51: by the event at the head of the agenda; a transaction keeps what is in progress. -/
theorem busyEndsOnlyByCompletionOrReset : Obligations.BusyEndsOnlyByCompletionOrReset := by
  intro s t hstep hbusy hended
  rcases step_cases s with ⟨ha, e⟩ | ⟨tr, rest, ha, _⟩ | ⟨rest, ha, e⟩ | ⟨rest, ha, _⟩
  · rw [e] at hstep
    exact .inl ⟨(engineTurn_ends hstep).2 hbusy, .inl ha⟩
  · obtain ⟨p, hp⟩ := Option.ne_none_iff_exists'.1 hbusy
    obtain ⟨hkept, _⟩ := step_host_busy ha hp hstep
    exact nomatch hended.symm.trans hkept
  · rw [e] at hstep
    exact .inl ⟨(engineTurn_ends hstep).2 hbusy, .inr ⟨rest, ha⟩⟩
  · exact .inr ⟨rest, ha⟩

end Sys2Proof.Proofs
end

section
/-! PROOFS. The loops of FWDN and INVN (42_commands.md R176, R177, R180, R181): one more level, and
what the later levels leave alone. -/

namespace Sys2Proof.Proofs

open Sys2Proof.Machine

/-- Settles O44: the loop's last level of FWDN and first of INVN, and PB after a level does not
depend on SB. -/
theorem multiLevelIsRepeatedSingleLevel : Obligations.MultiLevelIsRepeatedSingleLevel := by
  intro w h n pb sb sb'
  refine ⟨rfl, rfl, ?_, ?_⟩
  · rw [fwdLevels_succ, levelSide_eq, levelSide_eq]
    exact fwdLevel_pb_congr _ _ _ rfl
  · rw [invLevels_succ, levelSide_eq, levelSide_eq]
    exact invLevels_pb_congr _ _ _ rfl

/-- The regions shrink: a position outside that of level `m` is outside every later one. -/
theorem not_inRegion_mono {w h m n x y : Nat} (hmn : m ≤ n)
    (hout : ¬(x < w / 2 ^ m ∧ y < h / 2 ^ m)) : ¬(x < w / 2 ^ n ∧ y < h / 2 ^ n) := by
  have hside (side : Nat) : side / 2 ^ n ≤ side / 2 ^ m :=
    Nat.div_le_div_left (Nat.pow_le_pow_right Nat.two_pos hmn) (Nat.two_pow_pos m)
  exact fun ⟨hx, hy⟩ => hout ⟨hx.trans_le (hside w), hy.trans_le (hside h)⟩

/-- A forward level leaves alone what lies outside its region (41_haar_level.md R144). -/
theorem fwdLevel_outside_region {w aw ah x y : Nat} (c : Channel) (b : Buffers) (hw : aw ≤ w)
    (hx : x < w) (hout : ¬(x < aw ∧ y < ah)) :
    pbByte (fwdLevel w aw ah b).pb (sampleAddr w x y c) = pbByte b.pb (sampleAddr w x y c) :=
  fwdLevel_outside b (sampleAddr_outsideEven c hw hx fun _ => hout (by omega))

/-- Settles O45, by induction on the levels from `m` on. -/
theorem laterLevelsKeepEarlierDetails : Obligations.LaterLevelsKeepEarlierDetails := by
  intro w h m n x y c b hmn hx hout
  induction n, hmn using Nat.le_induction with
  | base => rfl
  | succ n hmn ih =>
    rw [← ih, fwdLevels_succ, levelSide_eq, levelSide_eq]
    exact fwdLevel_outside_region c _ (Nat.div_le_self _ _) hx (not_inRegion_mono hmn hout)

end Sys2Proof.Proofs
end

section
/-! PROOFS. Runs (42_commands.md R178, 70_reset_and_hazards.md R243, R244): host transactions leave
the command in progress alone, and a run from a state that meets the invariant comes to its end. -/

namespace Sys2Proof.Proofs

open Sys2Proof.Machine

/-- A run that goes on has a first step. -/
theorem run_succ_iff {s t : State} {n : Nat} :
    Host.Core.run Sys2Proof.core (n + 1) s = .next t ↔
      ∃ u, step s = .next u ∧ Host.Core.run Sys2Proof.core n u = .next t := by
  have hcore : Sys2Proof.core.step = step := rfl
  simp only [Host.Core.run, hcore]
  cases step s <;> simp

/-! ### Host transactions while busy -/

/-- Settles O47, by induction on the transactions: each keeps what is in progress and what it works
on, and is taken off the agenda. -/
theorem hostStepsLeaveTheCommandInProgress : Obligations.HostStepsLeaveTheCommandInProgress := by
  intro s t p n hpending hn hhost hrun
  induction n generalizing s with
  | zero =>
    cases hrun
    exact ⟨hpending, rfl, rfl, rfl, rfl, rfl, rfl, rfl, rfl⟩
  | succ n ih =>
    obtain ⟨u, hstep, hrun⟩ := run_succ_iff.1 hrun
    cases ha : s.agenda with
    | nil => simp [ha] at hn
    | cons e rest =>
      simp only [ha, List.length_cons, Nat.add_le_add_iff_right, List.take_succ_cons,
        List.forall_mem_cons] at hn hhost
      obtain ⟨⟨tr, rfl⟩, hrest⟩ := hhost
      obtain ⟨hp, hpb, hw, hh, haw, hah, hx, hy, hagenda⟩ := step_host_busy ha hpending hstep
      obtain ⟨hp', hpb', hw', hh', haw', hah', hx', hy', ha'⟩ :=
        ih u hp (hagenda ▸ hn) (hagenda ▸ hrest) hrun
      exact ⟨hp', hpb'.trans hpb, hw'.trans hw, hh'.trans hh, haw'.trans haw, hah'.trans hah,
        hx'.trans hx, hy'.trans hy, ha'.trans (congrArg (List.drop n) hagenda)⟩

/-! ### The agenda is taken event by event -/

/-- An engine turn takes nothing off the agenda. -/
theorem engineTurn_agenda {s t : State} (h : engineTurn s = .next t) : t.agenda = s.agenda := by
  rcases engineTurn_cases s with ⟨_, e⟩ | ⟨p, _, _, e⟩ | ⟨_, _, _, e⟩ <;>
    rw [e] at h <;> cases h <;> rfl

/-- A step takes the event at the head of the agenda. -/
theorem step_agenda {s t : State} (h : step s = .next t) : t.agenda = s.agenda.tail := by
  rcases step_cases s with ⟨ha, e⟩ | ⟨tr, rest, ha, e⟩ | ⟨rest, ha, e⟩ | ⟨rest, ha, e⟩ <;>
    rw [e] at h <;> rw [ha]
  · exact (engineTurn_agenda h).trans ha
  · exact (effect_unwritten (exec_effect h)).2.2
  · exact engineTurn_agenda h
  · cases h
    rfl

/-- One step after the last event nothing is left, on the agenda or in progress: with no event left
the engine has its turn (log 8). -/
theorem run_through_agenda {s : State} (h : s.Inv) :
    ∃ u : State, Host.Core.run Sys2Proof.core (s.agenda.length + 1) s = .next u ∧
      u.agenda = [] ∧ u.pending = none := by
  induction ha : s.agenda generalizing s with
  | nil =>
    obtain ⟨v, hstep⟩ := invariantStatesNeverStop s h
    have hnext : EngineNext s [] := .inr ⟨ha, rfl⟩
    have hidle : v.pending = none := (engineTurn_ends (hnext.step_eq.symm.trans hstep)).1
    exact ⟨v, run_of_step 0 hstep, (step_agenda hstep).trans (congrArg List.tail ha), hidle⟩
  | cons e rest ih =>
    obtain ⟨v, hstep⟩ := invariantStatesNeverStop s h
    obtain ⟨u, hrun, hu⟩ := ih (stepKeepsTheInvariant s v h hstep)
      ((step_agenda hstep).trans (congrArg List.tail ha))
    exact ⟨u, (run_of_step _ hstep).trans hrun, hu⟩

/-! ### The end of a run -/

/-- The end of a run (R244), as the statement spells it. -/
theorem finished_iff (s : State) :
    s.finished = true ↔ (∀ tr, Event.host tr ∉ s.agenda) ∧ s.pending = none := by
  have hhost : (!s.agenda.any Event.isHost) = true ↔ ∀ tr, Event.host tr ∉ s.agenda := by
    rw [Bool.not_eq_true', List.any_eq_false]
    constructor
    · exact fun h tr hmem => h _ hmem rfl
    · intro h e hmem
      cases e with
      | host tr => exact absurd hmem (h tr)
      | engine | rst => exact Bool.false_ne_true
  rw [State.finished, Bool.and_eq_true, hhost, Option.isNone_iff_eq_none]

/-- A state that is no end of a run, likewise. -/
theorem not_finished_iff (s : State) :
    ¬s.finished = true ↔ (∃ tr, Event.host tr ∈ s.agenda) ∨ s.pending ≠ none := by
  rw [finished_iff, not_and_or]
  simp only [not_forall, not_not, ne_eq]

/-- `t` is the first end of a run from `s`, reached after `n` steps. -/
structure FirstEnd (s : State) (n : Nat) (t : State) : Prop where
  run : Host.Core.run Sys2Proof.core n s = .next t
  finished : t.finished = true
  first : ∀ m < n, ∀ u, Host.Core.run Sys2Proof.core m s = .next u → ¬u.finished = true

theorem FirstEnd.of_finished {s : State} (h : s.finished = true) : FirstEnd s 0 s where
  run := rfl
  finished := h
  first := fun m hm => absurd hm (Nat.not_lt_zero m)

/-- A state that is no end has the first end of the state after it. -/
theorem FirstEnd.of_step {s v t : State} {n : Nat} (hstep : step s = .next v)
    (hs : ¬s.finished = true) (h : FirstEnd v n t) : FirstEnd s (n + 1) t where
  run := (run_of_step n hstep).trans h.run
  finished := h.finished
  first := by
    intro m hm u hrun
    cases m with
    | zero =>
      cases hrun
      exact hs
    | succ m =>
      rw [run_of_step m hstep] at hrun
      exact h.first m (Nat.lt_of_succ_lt_succ hm) u hrun

/-- A run of `k` steps that reaches an end has a first one, where `runToEnd` stops. -/
theorem exists_firstEnd {s u : State} {k : Nat}
    (hrun : Host.Core.run Sys2Proof.core k s = .next u) (hu : u.finished = true) :
    ∃ n t, n ≤ k ∧ FirstEnd s n t ∧ runToEnd k s = .next t := by
  induction k generalizing s with
  | zero =>
    cases hrun
    exact ⟨0, u, Nat.le_refl 0, .of_finished hu, rfl⟩
  | succ k ih =>
    cases hs : s.finished with
    | true => exact ⟨0, s, Nat.zero_le _, .of_finished hs, runToEnd_of_finished _ hs⟩
    | false =>
      obtain ⟨v, hstep, hrun⟩ := run_succ_iff.1 hrun
      obtain ⟨n, t, hn, hfirst, hend⟩ := ih hrun
      exact ⟨n + 1, t, Nat.succ_le_succ hn, hfirst.of_step hstep (by simp [hs]),
        (runToEnd_succ_iff hs).2 ⟨v, hstep, hend⟩⟩

/-- Settles O60: the run that takes every event, and then the engine's turn of an empty agenda
(log 8), reaches an end, so it has a first one. -/
theorem everyRunEndsWithNothingPending : Obligations.EveryRunEndsWithNothingPending := by
  intro s h
  obtain ⟨u, hrun, hagenda, hidle⟩ := run_through_agenda h
  have hu : u.finished = true := (finished_iff u).2 ⟨by simp [hagenda], hidle⟩
  obtain ⟨n, t, hn, hfirst, hend⟩ := exists_firstEnd hrun hu
  obtain ⟨hhost, hpending⟩ := (finished_iff t).1 hfirst.finished
  exact ⟨n, t, hn, hfirst.run, hhost, hpending,
    fun m hm v hv => (not_finished_iff v).1 (hfirst.first m hm v hv), hend, u, hrun, hagenda, hidle⟩

end Sys2Proof.Proofs
end

section
/-! PROOFS. Errors (60_exceptions.md): the first one is latched until it is acknowledged (R203, R208),
and an illegal command word is reported by the step that takes it (R204). -/

namespace Sys2Proof.Proofs

open Sys2Proof.Machine Sys2Proof.Claims

/-! ### The latch (R203, R208) -/

/-- An error raised on top of one in force leaves the code of the first (R203). -/
theorem raiseError_errCode_latched (e : HweError) {s : State} (h : s.err = true) :
    (raiseError e s).errCode = s.errCode := if_pos h

/-- The first error brings its own code (R203). -/
theorem raiseError_errCode_first (e : HweError) {s : State} (h : s.err = false) :
    (raiseError e s).errCode = e.code := if_neg (Bool.eq_false_iff.1 h)

/-- The codes of R200. -/
theorem code_mem (e : HweError) : e.code ∈ [1#4, 2#4, 3#4, 4#4] := by
  cases e <;> decide

/-- What an instruction can do to ERR and ERR_CODE: nothing, take an error, or acknowledge. -/
theorem err_cases {i : Instr} {s t : State} (h : Effect s i t) :
    (t.err = s.err ∧ t.errCode = s.errCode) ∨ (∃ e, t = raiseError e s) ∨
      ∃ d, i = .wrStatus d ∧ t = acknowledge d s := by
  cases h with
  | rejected _ e => exact .inr (.inl ⟨e, rfl⟩)
  | status d => exact .inr (.inr ⟨d, rfl, rfl⟩)
  | _ => exact .inl ⟨rfl, rfl⟩

/-- A STATUS write with bit 2 clear leaves ERR and ERR_CODE (40_register_access.md R104). -/
theorem acknowledge_err_kept {d : Word} (s : State) (h : d.getLsbD 2 = false) :
    (acknowledge d s).err = s.err ∧ (acknowledge d s).errCode = s.errCode := by
  rw [acknowledge_err, acknowledge_errCode, h]
  exact ⟨Bool.and_true _, rfl⟩

/-- A STATUS write with bit 2 set clears both (R208). -/
theorem acknowledge_err_cleared {d : Word} (s : State) (h : d.getLsbD 2 = true) :
    (acknowledge d s).err = false ∧ (acknowledge d s).errCode = 0 := by
  rw [acknowledge_err, acknowledge_errCode, h]
  exact ⟨Bool.and_false _, rfl⟩

/-- Settles O50: by what the instruction did to ERR, and a STATUS write by its bit 2. -/
theorem firstErrorIsLatched : Obligations.FirstErrorIsLatched := by
  intro i s t hexec
  rcases err_cases (exec_effect hexec) with ⟨herr, hcode⟩ | ⟨e, rfl⟩ | ⟨d, rfl, rfl⟩
  · exact ⟨fun hs => .inl ⟨herr.trans hs, hcode⟩,
      fun hs ht => nomatch ht.symm.trans (herr.trans hs)⟩
  · refine ⟨fun hs => .inl ⟨rfl, raiseError_errCode_latched e hs⟩, fun hs _ => ?_⟩
    rw [raiseError_errCode_first e hs]
    exact code_mem e
  · refine ⟨fun hs => ?_, fun hs ht => ?_⟩
    · cases hbit : d.getLsbD 2 with
      | false =>
        obtain ⟨herr, hcode⟩ := acknowledge_err_kept s hbit
        exact .inl ⟨herr.trans hs, hcode⟩
      | true =>
        obtain ⟨herr, hcode⟩ := acknowledge_err_cleared s hbit
        exact .inr ⟨herr, hcode, d, rfl, hbit⟩
    · rw [acknowledge_err, hs, Bool.false_and] at ht
      exact absurd ht Bool.false_ne_true

/-! ### Illegal command words (R204) -/

/-- For a word that is no command the port performs the write of that word to CMD (log 2). -/
theorem portInstr_of_not_decode {w : Word} (h : ∀ i, decode (.cmd w) ≠ .ok i) :
    portInstr (.cmd w) = .wrCmd w := by
  cases hcmd : decodeCmd w with
  | ok i => exact absurd hcmd (h i)
  | error _ => simp only [portInstr, hcmd]

/-- Settles O53: the port writes the word to CMD, where the lock rejects it while busy (R112) and the
legality check while idle (R170). -/
theorem stepReportsIllegalCommandWords : Obligations.StepReportsIllegalCommandWords := by
  intro s w rest hagenda hdecode
  rw [step_of_agenda_host hagenda, portInstr_of_not_decode hdecode]
  by_cases hidle : s.pending = none
  · rw [if_pos hidle]
    exact exec_wrCmd_illegal ((illegalCommand_iff_decode w).2 hdecode) hidle
  · rw [if_neg hidle]
    exact exec_writeOf_busy (r := .cmd) (by decide) w hidle

end Sys2Proof.Proofs
end

section
/-! PROOFS. The reset event (70_reset_and_hazards.md R230 to R232). -/

namespace Sys2Proof.Proofs

open Sys2Proof.Machine

/-- A step at a reset consumes that event and resets, whatever is in progress (R232). -/
theorem step_of_agenda_rst {s : State} {rest : List Event} (h : s.agenda = .rst :: rest) :
    step s = .next (resetEvent { s with agenda := rest }) := by
  simp only [step, h]

/-- In contents made unspecified no byte counts as written (R231). -/
@[simp] theorem written_scramble (m : Memory) (a : Nat) : m.scramble.written a = none := rfl

/-- Settles O55: the step is the reset event, whose PB and SB are the scrambled ones; the other
fields are those of `State.reset`, but for the capacity and the agenda. -/
theorem resetEventRestoresResetState : Obligations.ResetEventRestoresResetState := by
  intro s rest hagenda
  refine ⟨s.pb.scramble, s.sb.scramble, ?_, written_scramble s.pb, written_scramble s.sb⟩
  calc step s = .next (resetEvent { s with agenda := rest }) := step_of_agenda_rst hagenda
    _ = _ := rfl

end Sys2Proof.Proofs
end
